-- ==== Sys2Proof/Word.lean ====
section
/-! DEFINITION. The widths of the engine (spec/00_scope.md R6, R8). Every value is unsigned; bit 0 is the least
significant bit; byte `k` of a word is its bits `8k+7..8k`. -/

namespace Sys2Proof

/-- A 64-bit value: a state register, a key word, a message block, half a digest (R6). -/
abbrev Word := BitVec 64

/-- One byte of a message, a key or a digest (R8). -/
abbrev Byte := BitVec 8

/-- A command word (R50). -/
abbrev CmdWord := BitVec 16

end Sys2Proof
end

