-- ==== Sys2Proof/Config.lean ====
section
/-! DEFINITION. The elaboration-time parameters of the engine (spec/00_scope.md R5, spec/10_state.md R28). They are
configuration, not state: an operation takes them as an argument, and no command changes them. The engine has no free
value: no rule leaves a result open. -/

namespace Sys2Proof

/-- The three parameters of R5. Their legal values are `Params.legal` of WellFormed.lean. -/
structure Params where
  /-- C_ROUNDS: SipRounds per compressed block. -/
  cRounds : Nat
  /-- D_ROUNDS: SipRounds per finalisation pass. -/
  dRounds : Nat
  /-- TRACE_EN: whether the diagnostic trace port is built. -/
  traceEn : Bool
  deriving DecidableEq, Repr

/-- The values for this hardware (R5): SipHash-2-4, no trace port. -/
def Config.hardware : Params := { cRounds := 2, dRounds := 4, traceEn := false }

end Sys2Proof
end

