-- ==== Sys2Proof/Syntax.lean ====
section
/-! DEFINITION. The commands of the engine: one constructor per row of spec/opcode_table.json
(spec/30_encoding.md R62). The operands of a command are port values (R56), not fields of its word; the tail count of
FINAL is the only field that varies. -/

namespace Sys2Proof

/-- The commands the engine executes (R51, R62). -/
inductive Instr where
  /-- INIT.8: open a computation with an 8-byte digest (R64). -/
  | init8
  /-- INIT.16: open a computation with a 16-byte digest (R64). -/
  | init16
  /-- ABSORB: compress one full 8-byte block (R67). -/
  | absorb
  /-- FINAL: tail block, finalisation and output (R71); `t` is the tail byte count 0..7 (R52). -/
  | final (t : BitVec 3)
  deriving DecidableEq, Repr

end Sys2Proof
end

