-- ==== Sys2Proof/WellFormed.lean ====
section
/-! DEFINITION. Well-formedness. The fields of `Instr` carry their widths in their types (the tail count is three bits,
R52), so every term of `Instr` is well-formed; the checks that can fail are those on the parameters (R5) and on the
must-be-zero and OUTLEN fields of a command word (R53 to R55). -/

namespace Sys2Proof

/-- The range of a round count: an integer 1..15 (spec/00_scope.md R5; 92_eei_decisions.md D19). -/
abbrev roundsLegal (n : Nat) : Prop := 1 ≤ n ∧ n ≤ 15

/-- The legal parameters (R5). Both values of TRACE_EN are legal. -/
abbrev Params.legal (p : Params) : Prop := roundsLegal p.cRounds ∧ roundsLegal p.dRounds

/-- The fields of a command word as R50 draws them. -/
structure CmdFields where
  op     : BitVec 3
  t      : BitVec 3
  outlen : BitVec 5
  rsvd   : BitVec 5
  deriving DecidableEq, Repr

/-- Which field values an executed command may have (spec/30_encoding.md R51, R53, R55). -/
abbrev CmdFields.wf (f : CmdFields) : Prop :=
  f.rsvd = 0 ∧
  (f.op = 1 ∧ f.t = 0 ∧ (f.outlen = 8 ∨ f.outlen = 16) ∨
   f.op = 2 ∧ f.t = 0 ∧ f.outlen = 0 ∨
   f.op = 3 ∧ f.outlen = 0)

/-- The field values of each command (R51 to R55). -/
def Instr.fields : Instr → CmdFields
  | .init8   => { op := 1, t := 0, outlen := 8,  rsvd := 0 }
  | .init16  => { op := 1, t := 0, outlen := 16, rsvd := 0 }
  | .absorb  => { op := 2, t := 0, outlen := 0,  rsvd := 0 }
  | .final t => { op := 3, t := t, outlen := 0,  rsvd := 0 }

/-- A command is well-formed when its fields are those of an executed word (R55). -/
abbrev Instr.wf (i : Instr) : Prop := i.fields.wf

end Sys2Proof
end

