-- ==== Sys2Proof/Decode.lean ====
section
/-! DEFINITION. The decoder of a command word and, after it, the encoder (spec/30_encoding.md). Decoding is total: each
of the 65536 words is one command or one error code (R57). The check of PHASE, the last line of R57, needs the state
and stands in Machine/Ops.lean (`decodeAt`). -/

namespace Sys2Proof

/-- The error codes of spec/60_exceptions.md R87, as held in ERR. The values 5..7 are never produced (I9), so they are
not represented: DEDUCED, safe, log entry 6. -/
inductive ErrCode where
  /-- 0 NONE: no command rejected since the last INIT or reset. -/
  | noError
  /-- 1 ILLEGAL_OPCODE (R88). -/
  | illegalOpcode
  /-- 2 RESERVED_FIELD (R89). -/
  | reservedField
  /-- 3 INVALID_OUTLEN (R90). -/
  | invalidOutlen
  /-- 4 SEQUENCE (R91). -/
  | sequence
  deriving DecidableEq, Repr

/-- The four fields of a command word (R50). -/
def fieldsOf (w : CmdWord) : CmdFields where
  op     := w.extractLsb' 0 3
  t      := w.extractLsb' 3 3
  outlen := w.extractLsb' 6 5
  rsvd   := w.extractLsb' 11 5

/-- The checks of R57 on the fields, in their order: the first that fails names the error. -/
def decodeFields (f : CmdFields) : Except ErrCode Instr :=
  if ¬ (f.op = 1 ∨ f.op = 2 ∨ f.op = 3) then .error .illegalOpcode
  else if f.rsvd ≠ 0 then .error .reservedField
  else if f.op = 1 ∧ f.t ≠ 0 then .error .reservedField
  else if f.op = 2 ∧ (f.t ≠ 0 ∨ f.outlen ≠ 0) then .error .reservedField
  else if f.op = 3 ∧ f.outlen ≠ 0 then .error .reservedField
  else if f.op = 1 ∧ ¬ (f.outlen = 8 ∨ f.outlen = 16) then .error .invalidOutlen
  else if f.op = 1 then .ok (if f.outlen = 16 then .init16 else .init8)
  else if f.op = 2 then .ok .absorb
  else .ok (.final f.t)

/-- The decoder of a command word: a command, or the code of the error it raises (R57). -/
def decode (w : CmdWord) : Except ErrCode Instr := decodeFields (fieldsOf w)

/-- A command word from its fields: RSVD in bits 15..11, OUTLEN in 10..6, T in 5..3, OP in 2..0 (R50). -/
def wordOf (f : CmdFields) : CmdWord := f.rsvd ++ f.outlen ++ f.t ++ f.op

/-- The encoder: the word of a command (R50 to R55, R62). -/
def encode (i : Instr) : CmdWord := wordOf i.fields

/-- The match column of the opcode map (R62). -/
def rowMatch : Instr → CmdWord
  | .init8   => 0x0201
  | .init16  => 0x0401
  | .absorb  => 0x0002
  | .final _ => 0x0003

/-- The mask column of the opcode map (R62). -/
def rowMask : Instr → CmdWord
  | .init8   => 0xFFFF
  | .init16  => 0xFFFF
  | .absorb  => 0xFFFF
  | .final _ => 0xFFC7

/-- What the decoder reads from an instruction whose bits are `w`, `nbits` of them given, the rest zero. A command is
exactly one 16-bit word (R59), so more than 16 bits are no command. -/
def decodeTableWord (nbits w : Nat) : Option Instr :=
  if nbits ≤ 16 then (decode (BitVec.ofNat 16 (w % 2 ^ nbits))).toOption else none

end Sys2Proof
end

