-- ==== Sys2Proof/Machine/State.lean ====
section
/-! DEFINITION. The state of the machine: the engine's registers (spec/10_state.md R12 to R24), its input ports
(spec/20_memory.md R33) and the host's coming moves (R34, R49); and the state after reset (R31, R104). The engine has no
memory (R32), no program counter (R25) and no other register file (R27). -/

namespace Sys2Proof.Machine

/-- PHASE, the position of the engine in a computation (R16). The value 3 is never produced (I8), so it is not
represented: DEDUCED, safe, log entry 6. -/
inductive Phase where
  | idle
  | absorb
  | done
  deriving DecidableEq, Repr

/-- STAGE, the round group in progress (R23). -/
inductive Stage where
  | idle
  | c
  | d1
  | d2
  deriving DecidableEq, Repr

/-- The four state registers v0..v3 (R12). -/
@[ext] structure VRegs where
  v0 : Word
  v1 : Word
  v2 : Word
  v3 : Word
  deriving DecidableEq, Repr

/-- One trace event, and the contents of the trace register: the stage, the index of the round in its group, and the
four SipRound outputs (R24, R98). -/
structure TraceEvent where
  stage : Stage
  idx   : BitVec 4
  v     : VRegs
  deriving DecidableEq, Repr

/-- The registers of the engine. READY is not among them: it is 1 exactly when STAGE = IDLE (R23), see `Engine.ready`.
The status word, the digest port and `digest_valid` are functions of these (R21, R40, R41). -/
@[ext] structure Engine where
  /-- v0..v3 (R12). -/
  v          : VRegs
  /-- MODE16: the output size chosen by the last accepted INIT (R15). -/
  mode16     : Bool
  /-- PHASE (R16). -/
  phase      : Phase
  /-- BLEN: message bytes taken, modulo 256 (R17). -/
  blen       : BitVec 8
  /-- ERR: the first rejection since the last accepted INIT or reset (R18). -/
  err        : ErrCode
  /-- OUT0: the first 8 digest bytes (R19). -/
  out0       : Word
  /-- OUT1: the second 8 digest bytes (R19). -/
  out1       : Word
  /-- MREG: the word of the current ABSORB or FINAL (R22). -/
  mreg       : Word
  /-- STAGE (R23). -/
  stage      : Stage
  /-- RC: the number of rounds left in the group (R23). -/
  rc         : BitVec 4
  /-- FIN: whether the C group in progress belongs to a FINAL (R23). -/
  fin        : Bool
  /-- The trace register (R24). When TRACE_EN = 0 no register exists and the field keeps its reset value:
  DEDUCED, safe, log entry 7. -/
  trace      : TraceEvent
  /-- trace_valid (R98). -/
  traceValid : Bool
  /-- The events the trace port has carried since reset, in order: the model's own field, the event list that I3 of
  93_implementation_defined.md allows. DESIGN CHOICE, safe, log entry 4. -/
  traceLog   : List TraceEvent
  deriving DecidableEq, Repr

/-- The input ports (R33) as they stand at a rising edge of `clk`. -/
structure Pins where
  rst      : Bool
  cmdValid : Bool
  cmd      : CmdWord
  din      : Word
  key0     : Word
  key1     : Word
  deriving DecidableEq, Repr

/-- A command with its operands, as the host presents it (R34). -/
structure Command where
  cmd  : CmdWord
  din  : Word
  key0 : Word
  key1 : Word
  deriving DecidableEq, Repr

/-- What the host can do (R34, R41, R49). DESIGN CHOICE, safe, log entries 1, 9 and 10. -/
inductive HostMove where
  /-- The command-level step `issue(cmd, din, key0, key1)` of R34. -/
  | issue (c : Command)
  /-- One rising edge of `clk` with these values on the input ports (R33): an accept edge, a round edge or a reset. -/
  | edge (p : Pins)
  /-- Read the digest port (R41). -/
  | readDigest
  deriving DecidableEq, Repr

/-- The state: the engine, its input ports, and the host's coming moves, the next one first. -/
structure State where
  eng  : Engine
  pins : Pins
  host : List HostMove
  deriving DecidableEq, Repr

/-- Why the machine stops with a fault. -/
inductive Fault where
  /-- DigestNotValid (R41, I5): raised by the host's read of the digest while `digest_valid` = 0, and by nothing else.
  Safe: the spec asks a model for this fault and for no value. -/
  | digestNotValid
  deriving DecidableEq, Repr

/-- Why the machine refuses a step. -/
inductive Refusal where
  /-- An instruction without a meaning; raised only by an arm of `exec` that has none, and no arm is such. Safe: the
  machine stops. -/
  | notModelled (mnemonic : String)
  deriving DecidableEq, Repr

/-- All four state registers zero (R31). -/
def VRegs.zero : VRegs := { v0 := 0, v1 := 0, v2 := 0, v3 := 0 }

/-- The trace register after reset (R31). -/
def TraceEvent.zero : TraceEvent := { stage := .idle, idx := 0, v := VRegs.zero }

/-- The reset state of the engine (R31, R104). -/
def Engine.reset : Engine where
  v          := VRegs.zero
  mode16     := false
  phase      := .idle
  blen       := 0
  err        := .noError
  out0       := 0
  out1       := 0
  mreg       := 0
  stage      := .idle
  rc         := 0
  fin        := false
  trace      := TraceEvent.zero
  traceValid := false
  traceLog   := []

/-- Input ports on which the host presents nothing. The values are inputs, which the spec gives no reset value:
DESIGN CHOICE, unsafe, log entry 3. -/
def Pins.quiet : Pins := { rst := false, cmdValid := false, cmd := 0, din := 0, key0 := 0, key1 := 0 }

/-- The machine right after reset: the engine in its reset state (R104), nothing presented, no coming move (log
entries 1 and 3). -/
def State.reset : State := { eng := Engine.reset, pins := Pins.quiet, host := [] }

end Sys2Proof.Machine
end

