-- ==== Sys2Proof/Machine/Permutation.lean ====
section
/-! DEFINITION. The 64-bit datapath: rotation, SipRound and its iteration (spec/43_permutation.md). Addition modulo
2^64 (R80) and exclusive OR (R81) are `+` and `^^^` of `BitVec 64`. -/

namespace Sys2Proof.Machine

/-- Circular left rotation by `r` bits, `0 < r < 64` (R79). -/
def rotl (a : Word) (r : Nat) : Word := (a <<< r) ||| (a >>> (64 - r))

/-- SipRound (R82): the fixed sequence, each line reading what the lines before it wrote. -/
def sipRound (v : VRegs) : VRegs :=
  let v := { v with v0 := v.v0 + v.v1 }
  let v := { v with v1 := rotl v.v1 13 }
  let v := { v with v1 := v.v1 ^^^ v.v0 }
  let v := { v with v0 := rotl v.v0 32 }
  let v := { v with v2 := v.v2 + v.v3 }
  let v := { v with v3 := rotl v.v3 16 }
  let v := { v with v3 := v.v3 ^^^ v.v2 }
  let v := { v with v0 := v.v0 + v.v3 }
  let v := { v with v3 := rotl v.v3 21 }
  let v := { v with v3 := v.v3 ^^^ v.v0 }
  let v := { v with v2 := v.v2 + v.v1 }
  let v := { v with v1 := rotl v.v1 17 }
  let v := { v with v1 := v.v1 ^^^ v.v2 }
  let v := { v with v2 := rotl v.v2 32 }
  v

/-- Rounds(n): `n` successive SipRounds (R83). -/
def rounds : Nat → VRegs → VRegs
  | 0,     v => v
  | n + 1, v => sipRound (rounds n v)

/-- XOR a value into one state register (R81). -/
def xorV0 (v : VRegs) (w : Word) : VRegs := { v with v0 := v.v0 ^^^ w }
/-- See `xorV0`. -/
def xorV1 (v : VRegs) (w : Word) : VRegs := { v with v1 := v.v1 ^^^ w }
/-- See `xorV0`. -/
def xorV2 (v : VRegs) (w : Word) : VRegs := { v with v2 := v.v2 ^^^ w }
/-- See `xorV0`. -/
def xorV3 (v : VRegs) (w : Word) : VRegs := { v with v3 := v.v3 ^^^ w }

/-- The exclusive OR of the four registers, half a digest (R74, R75). -/
def foldV (v : VRegs) : Word := v.v0 ^^^ v.v1 ^^^ v.v2 ^^^ v.v3

end Sys2Proof.Machine
end

