-- ==== Sys2Proof/Machine/Operands.lean ====
section
/-! DEFINITION. Operand values: the initialisation constants (spec/40_init.md R63), the byte lanes of the data port
(spec/20_memory.md R36, R38), the tail word (spec/42_finalization.md R70) and the domain separation constants
(R65, R73, R75). -/

namespace Sys2Proof.Machine

/-- C0, the string "somepseu", first character most significant (R63; 90_conflicts.md C1). The rule marks the ASCII codes
as general knowledge (G1): UNVERIFIED, unsafe, log entry 13; so C1 to C3. -/
def constC0 : Word := 0x736f6d6570736575
/-- C1, the string "dorandom" (R63). -/
def constC1 : Word := 0x646f72616e646f6d
/-- C2, the string "lygenera" (R63). -/
def constC2 : Word := 0x6c7967656e657261
/-- C3, the string "tedbytes" (R63). -/
def constC3 : Word := 0x7465646279746573

/-- Byte `k` of a word, bits `8k+7..8k` (R8); lane `k` of the data port (R36). -/
def byteOf (w : Word) (k : Nat) : Byte := w.extractLsb' (8 * k) 8

/-- LE64 of a list of bytes, the first least significant; missing bytes are zero (R9, R36). -/
def le64 : List Byte → Word
  | []      => 0
  | b :: bs => b.setWidth 64 ||| (le64 bs <<< 8)

/-- The mask of lanes 0..T-1: `(1 << (8*T)) - 1`, zero for T = 0 (R70). -/
def tailMask (t : BitVec 3) : Word := ((1 : Word) <<< (8 * t.toNat)) - 1

/-- The tail word of a FINAL: the length byte on top, the tail bytes below, zeros between (R70). -/
def tailWord (blen : BitVec 8) (t : BitVec 3) (w : Word) : Word :=
  ((blen + t.setWidth 8).setWidth 64 <<< 56) ||| (w &&& tailMask t)

/-- The constant XORed into v1 by INIT: 0xEE in 16-byte mode, nothing in 8-byte mode (R65). -/
def initConst (mode16 : Bool) : Word := if mode16 then 0xEE else 0

/-- The constant XORed into v2 before the first finalisation pass (R73). -/
def finalConst (mode16 : Bool) : Word := if mode16 then 0xEE else 0xFF

/-- The constant XORed into v1 before the second finalisation pass (R75). -/
def secondConst : Word := 0xDD

end Sys2Proof.Machine
end

