-- ==== Sys2Proof/Machine/Flags.lean ====
section
/-! DEFINITION. The status fields: READY, the byte count, the numeric codes and the status word (spec/10_state.md R15 to
R21). The engine has no condition codes; additions and rotations set nothing (R26). -/

namespace Sys2Proof.Machine

/-- READY, and with it `cmd_ready`: 1 exactly when STAGE = IDLE (R20, R23, R109). -/
def Engine.ready (e : Engine) : Bool := decide (e.stage = .idle)

/-- BLEN after one more full block, modulo 256 (R17, R68). -/
def blenBlock (blen : BitVec 8) : BitVec 8 := blen + 8

/-- BLEN after a tail of `t` bytes, modulo 256 (R17, R71). -/
def blenTail (blen : BitVec 8) (t : BitVec 3) : BitVec 8 := blen + t.setWidth 8

/-- The value of PHASE (R16). -/
def phaseCode : Phase → BitVec 2
  | .idle   => 0
  | .absorb => 1
  | .done   => 2

/-- The value of ERR (R87). -/
def errCode : ErrCode → BitVec 3
  | .noError       => 0
  | .illegalOpcode => 1
  | .reservedField => 2
  | .invalidOutlen => 3
  | .sequence      => 4

/-- The value of `trace_stage` (R33, R98); 0 is the reset value of the trace register (R31). -/
def stageCode : Stage → BitVec 2
  | .idle => 0
  | .c    => 1
  | .d1   => 2
  | .d2   => 3

/-- The status port: BLEN, a zero bit, ERR, MODE16, PHASE, READY, from bit 15 down (R21). -/
def statusWord (e : Engine) : BitVec 16 :=
  e.blen ++ (0 : BitVec 1) ++ errCode e.err ++ BitVec.ofBool e.mode16 ++ phaseCode e.phase ++ BitVec.ofBool e.ready

/-- `digest_valid`: 1 exactly when PHASE = DONE (R41). -/
def digestValid (e : Engine) : Bool := decide (e.phase = .done)

end Sys2Proof.Machine
end

