-- ==== Sys2Proof/Machine/Ops.lean ====
section
/-! DEFINITION. The shared operations: rejecting a command (the engine's only exception, spec/60_exceptions.md R93), the
PHASE check of decode (R57), a traced round and a traced group of rounds (R83, R98), the round edge of the sequencer
(spec/70_reset_and_hazards.md R107, R108), and offering a command to the engine (R34). -/

namespace Sys2Proof.Machine

/-- What a rejected command does: the first error is kept, PHASE becomes IDLE, nothing else changes (R93). The engine has
no vector and no saved state, and no return: recovery is an INIT or a reset (R86, R94). -/
def reject (code : ErrCode) (e : Engine) : Engine :=
  { e with err := if e.err = .noError then code else e.err, phase := .idle }

/-- Commands that need an open computation: the last check of R57. -/
def needsOpen : Instr → Bool
  | .init8   => false
  | .init16  => false
  | .absorb  => true
  | .final _ => true

/-- `decode(cmd, PHASE)` of R57, with the SEQUENCE check. -/
def decodeAt (cmd : CmdWord) (phase : Phase) : Except ErrCode Instr :=
  match decode cmd with
  | .error code => .error code
  | .ok i       => if needsOpen i = true ∧ phase ≠ .absorb then .error .sequence else .ok i

/-- The guard of ABSORB and FINAL: outside PHASE ABSORB the command is rejected with SEQUENCE (R91). -/
def inSequence (run : Engine → Engine) (e : Engine) : Engine :=
  if e.phase = .absorb then run e else reject .sequence e

/-- `trace_valid` falls at every accept edge (R98, R106). -/
def clearTraceValid (e : Engine) : Engine := { e with traceValid := false }

/-- Record a trace event: nothing when TRACE_EN = 0 (R10, R24, R98). -/
def emitTrace (p : Params) (ev : TraceEvent) (e : Engine) : Engine :=
  if p.traceEn then { e with trace := ev, traceValid := true, traceLog := e.traceLog ++ [ev] } else e

/-- One round of a group at the command level: `v <- SipRound(v); emit Trace(stage, i, v)` (R67, R71). -/
def oneRound (p : Params) (stage : Stage) (i : Nat) (e : Engine) : Engine :=
  emitTrace p { stage := stage, idx := BitVec.ofNat 4 i, v := sipRound e.v } { e with v := sipRound e.v }

/-- A group of `n` rounds, indices 0..n-1 (R67, R71, R83). -/
def runRounds (p : Params) (stage : Stage) : Nat → Engine → Engine
  | 0,     e => e
  | n + 1, e => oneRound p stage n (runRounds p stage n e)

/-- The number of rounds of a group (R107). -/
def groupRounds (p : Params) (stage : Stage) : Nat := if stage = .c then p.cRounds else p.dRounds

/-- The end of a round group, with the closing XOR folded into the write-back of `s` (R108). -/
def endOfGroup (p : Params) (s : VRegs) (e : Engine) : Engine :=
  match e.stage with
  | .idle => e
  | .c    =>
    if e.fin then
      { e with v := xorV2 (xorV0 s e.mreg) (finalConst e.mode16), stage := .d1, rc := BitVec.ofNat 4 p.dRounds }
    else { e with v := xorV0 s e.mreg, stage := .idle, rc := 0 }
  | .d1   =>
    if e.mode16 then
      { e with v := xorV1 s secondConst, out0 := foldV s, stage := .d2, rc := BitVec.ofNat 4 p.dRounds }
    else { e with v := s, out0 := foldV s, stage := .idle, rc := 0, phase := .done }
  | .d2   => { e with v := s, out1 := foldV s, stage := .idle, rc := 0, phase := .done }

/-- The round edge: one SipRound of the registers, written back (R107). The input ports are not read (R35, R111). -/
def roundEdge (p : Params) (e : Engine) : Engine :=
  let s := sipRound e.v
  let ev := { stage := e.stage, idx := BitVec.ofNat 4 (groupRounds p e.stage) - e.rc, v := s }
  let e' := emitTrace p ev e
  if 1 < e.rc then { e' with v := s, rc := e.rc - 1 } else endOfGroup p s e'

/-- Offer a command to the engine of this hardware. If READY = 1 it is accepted and `effect`, the whole command, takes
place (R7, R34). If READY = 0 it is not accepted: the edge is a round edge and the host keeps presenting it (R34, R107,
R111; DEDUCED, safe, log entry 5). -/
def offer (s : State) (effect : Engine → Engine) : Host.Outcome State Fault Refusal :=
  .next { s with eng := if s.eng.ready then effect (clearTraceValid s.eng) else roundEdge Config.hardware s.eng }

/-- A command word that decodes to an error is offered and rejected (R86, R93). -/
def rejectWord (code : ErrCode) (s : State) : Host.Outcome State Fault Refusal := offer s (reject code)

end Sys2Proof.Machine
end

