-- ==== Sys2Proof/Machine/Compression.lean ====
section
/-! DEFINITION. ABSORB (spec/41_compression.md). -/

namespace Sys2Proof.Machine

/-- The C_ROUNDS rounds that follow the XOR of `m` into v3, and the XOR of MREG into v0: the part ABSORB and FINAL share
(R67, R71, R72). -/
def compress (p : Params) (m : Word) (e : Engine) : Engine :=
  let e := { e with mreg := m, v := xorV3 e.v m }
  let e := runRounds p .c p.cRounds e
  { e with v := xorV0 e.v e.mreg }

/-- ABSORB of the block `m` in PHASE ABSORB (R67, R68). FIN is left as the accept edge sets it (R106; DEDUCED, safe, log
entry 8). -/
def absorb (p : Params) (m : Word) (e : Engine) : Engine :=
  compress p m { e with blen := blenBlock e.blen, fin := false }

/-- ABSORB, word 0x0002 (R67); SEQUENCE outside PHASE ABSORB (R91). -/
def execAbsorb (s : State) : Host.Outcome State Fault Refusal :=
  offer s (inSequence (absorb Config.hardware s.pins.din))

end Sys2Proof.Machine
end

