-- ==== Sys2Proof/Machine/Finalisation.lean ====
section
/-! DEFINITION. FINAL (spec/42_finalization.md). -/

namespace Sys2Proof.Machine

/-- The first finalisation pass: a constant into v2, D_ROUNDS rounds, OUT0 (R73, R74). -/
def firstPass (p : Params) (e : Engine) : Engine :=
  let e := { e with v := xorV2 e.v (finalConst e.mode16) }
  let e := runRounds p .d1 p.dRounds e
  { e with out0 := foldV e.v }

/-- The second finalisation pass of 16-byte mode: 0xDD into v1, D_ROUNDS rounds, OUT1 (R75). The rule itself marks the
round count and the output XOR as general knowledge: UNVERIFIED, unsafe, log entry 13. -/
def secondPass (p : Params) (e : Engine) : Engine :=
  let e := { e with v := xorV1 e.v secondConst }
  let e := runRounds p .d2 p.dRounds e
  { e with out1 := foldV e.v }

/-- FINAL with tail count `t` and data `w` in PHASE ABSORB (R70 to R77). FIN is left as the accept edge sets it (R106;
DEDUCED, safe, log entry 8). -/
def finalise (p : Params) (t : BitVec 3) (w : Word) (e : Engine) : Engine :=
  let b := tailWord e.blen t w
  let e := compress p b { e with blen := blenTail e.blen t, fin := true }
  let e := firstPass p e
  let e := if e.mode16 then secondPass p e else e
  { e with phase := .done }

/-- FINAL, word 0x0003 | (T << 3) (R71); SEQUENCE outside PHASE ABSORB (R91). -/
def execFinal (t : BitVec 3) (s : State) : Host.Outcome State Fault Refusal :=
  offer s (inSequence (finalise Config.hardware t s.pins.din))

end Sys2Proof.Machine
end

