-- ==== Sys2Proof/Machine/Initialisation.lean ====
section
/-! DEFINITION. INIT (spec/40_init.md): INIT.8 and INIT.16. -/

namespace Sys2Proof.Machine

/-- The state registers after INIT: key and constants, and 0xEE into v1 in 16-byte mode (R64, R65). -/
def initRegs (mode16 : Bool) (key0 key1 : Word) : VRegs :=
  xorV1 { v0 := constC0 ^^^ key0, v1 := constC1 ^^^ key1, v2 := constC2 ^^^ key0, v3 := constC3 ^^^ key1 }
    (initConst mode16)

/-- INIT (R64) with its bookkeeping (R66). It runs no rounds and emits no trace event. -/
def initialise (mode16 : Bool) (key0 key1 : Word) (e : Engine) : Engine :=
  { e with
    v := initRegs mode16 key0 key1, mode16 := mode16, blen := 0, err := .noError, out0 := 0, out1 := 0, mreg := 0,
    phase := .absorb }

/-- INIT.8, word 0x0201 (R64). -/
def execInit8 (s : State) : Host.Outcome State Fault Refusal :=
  offer s (initialise false s.pins.key0 s.pins.key1)

/-- INIT.16, word 0x0401 (R64). -/
def execInit16 (s : State) : Host.Outcome State Fault Refusal :=
  offer s (initialise true s.pins.key0 s.pins.key1)

end Sys2Proof.Machine
end

