-- ==== Sys2Proof/Machine/Cycle.lean ====
section
/-! DEFINITION. The cycle level (spec/70_reset_and_hazards.md R103 to R110): what one rising edge of `clk` does, for any
parameters; and the command level for any parameters, which it refines (R7, R114). -/

namespace Sys2Proof.Machine

/-- The accept edge of ABSORB: the first XOR, the byte count, and the C group armed (R106). -/
def acceptBlock (p : Params) (m : Word) (e : Engine) : Engine :=
  { e with
    mreg := m, v := xorV3 e.v m, blen := blenBlock e.blen, stage := .c, rc := BitVec.ofNat 4 p.cRounds, fin := false }

/-- The accept edge of FINAL (R106). -/
def acceptTail (p : Params) (t : BitVec 3) (w : Word) (e : Engine) : Engine :=
  { e with
    mreg := tailWord e.blen t w, v := xorV3 e.v (tailWord e.blen t w), blen := blenTail e.blen t, stage := .c,
    rc := BitVec.ofNat 4 p.cRounds, fin := true }

/-- The accept edge (R106): with `cmd_valid` = 1 the command is accepted and rejected, executed (INIT) or started. -/
def acceptEdge (p : Params) (pins : Pins) (e : Engine) : Engine :=
  let e := clearTraceValid e
  if pins.cmdValid then
    match decodeAt pins.cmd e.phase with
    | .error code    => reject code e
    | .ok .init8     => initialise false pins.key0 pins.key1 e
    | .ok .init16    => initialise true pins.key0 pins.key1 e
    | .ok .absorb    => acceptBlock p pins.din e
    | .ok (.final t) => acceptTail p t pins.din e
  else e

/-- One rising edge of `clk`: reset before everything (R103), then the accept edge when STAGE = IDLE (R106), else the
round edge (R107). -/
def clockEdge (p : Params) (pins : Pins) (e : Engine) : Engine :=
  if pins.rst then Engine.reset
  else if e.ready then acceptEdge p pins e
  else roundEdge p e

/-- A sequence of rising edges with these values on the ports. -/
def clockEdges (p : Params) : List Pins → Engine → Engine
  | [],           e => e
  | pins :: rest, e => clockEdges p rest (clockEdge p pins e)

/-- The command level for any parameters: what one accepted command does, from READY = 1 (R7, R57, R64, R67, R71, R93). -/
def commandLevel (p : Params) (c : Command) (e : Engine) : Engine :=
  let e := clearTraceValid e
  match decodeAt c.cmd e.phase with
  | .error code    => reject code e
  | .ok .init8     => initialise false c.key0 c.key1 e
  | .ok .init16    => initialise true c.key0 c.key1 e
  | .ok .absorb    => absorb p c.din e
  | .ok (.final t) => finalise p t c.din e

/-- The number of rising edges after its accept edge during which an accepted command keeps READY = 0 (R110). -/
def latency (p : Params) (c : Command) (e : Engine) : Nat :=
  match decodeAt c.cmd e.phase with
  | .error _       => 0
  | .ok .init8     => 0
  | .ok .init16    => 0
  | .ok .absorb    => p.cRounds
  | .ok (.final _) => p.cRounds + (if e.mode16 then 2 * p.dRounds else p.dRounds)

/-- The ports on which the host presents the command `c` (R34). -/
def drive (c : Command) : Pins :=
  { rst := false, cmdValid := true, cmd := c.cmd, din := c.din, key0 := c.key0, key1 := c.key1 }

/-- The host presents `c`, the command of its next move. The move is over when the engine accepts it, which is when
READY = 1; else the command stays to be presented again (R34, R49). -/
def present (c : Command) (s : State) : State :=
  { s with pins := drive c, host := if s.eng.ready then s.host.tail else s.host }

/-- One rising edge of this hardware with `pins` on the ports. -/
def clockState (pins : Pins) (s : State) : State :=
  { s with pins := pins, eng := clockEdge Config.hardware pins s.eng }

/-- The ports when the host presents nothing: `rst` and `cmd_valid` are 0, the rest stands as it was (R35). -/
def release (pins : Pins) : Pins := { pins with rst := false, cmdValid := false }

/-- `s` with the command word `w` as the host's next move, and the engine ready for it. The operands are what stands on
the ports. A busy engine is made ready, so that the very next step accepts the command (log entry 1). -/
def loadCommand (s : State) (w : CmdWord) : State :=
  { s with
    eng := if s.eng.ready then s.eng else { s.eng with stage := .idle, rc := 0 },
    host := .issue { cmd := w, din := s.pins.din, key0 := s.pins.key0, key1 := s.pins.key1 } :: s.host }

end Sys2Proof.Machine
end

