-- ==== Sys2Proof/Machine/Dispatch.lean ====
section
/-! DEFINITION. The dispatch: one arm per constructor of `Instr`, each one call of that command's meaning. `exec i s`
offers the command `i` to the engine with the operands on the input ports of `s` (R34, R56). -/

namespace Sys2Proof.Machine

def exec (i : Instr) (s : State) : Host.Outcome State Fault Refusal :=
  match i with
  | .init8 => Sys2Proof.Machine.execInit8 s
  | .init16 => Sys2Proof.Machine.execInit16 s
  | .absorb => Sys2Proof.Machine.execAbsorb s
  | .final t => Sys2Proof.Machine.execFinal t s

end Sys2Proof.Machine
end

