-- ==== Sys2Proof/Machine/Ports.lean ====
section
/-! DEFINITION. What the host can observe (spec/10_state.md R30, spec/20_memory.md R33, R40 to R42): status, the digest
while it is valid, and the trace ports when they exist. Reading has no side effect (R42). -/

namespace Sys2Proof.Machine

/-- The host's read of the digest port: `{OUT1, OUT0}` while `digest_valid` = 1 (R40), else the fault DigestNotValid and
no value (R41). -/
def readDigest (e : Engine) : Host.Outcome (BitVec 128) Fault Refusal :=
  if digestValid e then .next (e.out1 ++ e.out0) else .fault .digestNotValid

/-- The digest in bytes, output byte `n` being `digest[8n+7:8n]`: 8 bytes, or 16 in 16-byte mode (R40, R74, R75). -/
def digestBytes (mode16 : Bool) (d : BitVec 128) : List Byte :=
  (List.range (if mode16 then 16 else 8)).map fun n => d.extractLsb' (8 * n) 8

/-- The host's read of the digest as a move of the machine: no edge passes and no register changes (R42). DESIGN CHOICE,
safe, log entry 10. -/
def takeDigest (s : State) : Host.Outcome State Fault Refusal :=
  match readDigest s.eng with
  | .next _    => .next s
  | .fault r   => .fault r
  | .refused r => .refused r

/-- The trace ports of R33. -/
structure TracePorts where
  traceValid : Bool
  traceV     : BitVec 256
  traceStage : BitVec 2
  traceIdx   : BitVec 4
  deriving DecidableEq, Repr

/-- The trace ports, which exist only when TRACE_EN = 1 (R33, R98, I16). -/
def tracePorts (p : Params) (e : Engine) : Option TracePorts :=
  if p.traceEn then
    some { traceValid := e.traceValid, traceV := e.trace.v.v3 ++ e.trace.v.v2 ++ e.trace.v.v1 ++ e.trace.v.v0,
           traceStage := stageCode e.trace.stage, traceIdx := e.trace.idx }
  else none

/-- Everything the host can observe (R30, R33). -/
structure Outputs where
  cmdReady    : Bool
  status      : BitVec 16
  digestValid : Bool
  /-- The digest port, given only while it is valid (R41). -/
  digest      : Option (BitVec 128)
  trace       : Option TracePorts
  deriving DecidableEq, Repr

/-- The outputs are functions of the registers only (R33). -/
def outputs (p : Params) (e : Engine) : Outputs where
  cmdReady    := e.ready
  status      := statusWord e
  digestValid := digestValid e
  digest      := if digestValid e then some (e.out1 ++ e.out0) else none
  trace       := tracePorts p e

end Sys2Proof.Machine
end

