-- ==== Sys2Proof/Machine/Step.lean ====
section
/-! DEFINITION. One step of the machine: the host's next move (spec/20_memory.md R34, R49), or, when the host has none, a
rising edge on which it presents nothing. The engine has no program counter and fetches nothing (spec/10_state.md R25). -/

namespace Sys2Proof.Machine

/-- One step. `issue` is the command-level step of R34; `edge` is one rising edge of `clk` (R106 to R108); `readDigest`
is the host's read (R41). A reset edge resets the engine and leaves the later moves (R103; DEDUCED, safe, log entry 11).
With no move left the engine runs its rounds to their end and then holds its state (R102, R116; DEDUCED, safe, log entry
2). -/
def step (s : State) : Host.Outcome State Fault Refusal :=
  match s.host with
  | [] => .next (clockState (release s.pins) s)
  | .issue c :: _ =>
    match decode c.cmd with
    | .ok i => exec i (present c s)
    | .error code => rejectWord code (present c s)
  | .edge pins :: rest => .next (clockState pins { s with host := rest })
  | .readDigest :: rest => takeDigest { s with host := rest }

/-- `s` with the command word whose bits are `w` as the host's next move, accepted by the very next step. A command is
one 16-bit word (R59); the operands are what stands on the ports (log entry 1). -/
def State.withFetchWord (s : State) (nbits w : Nat) : State := loadCommand s (BitVec.ofNat 16 (w % 2 ^ nbits))

end Sys2Proof.Machine
end

