-- ==== Sys2Proof/Machine/Assembly.lean ====
section
/-! DEFINITION. The assembler statements of spec/30_encoding.md R60 and the pseudo-instruction HASH of R61, as the
commands they stand for. -/

namespace Sys2Proof.Machine

/-- The statements of R60. -/
inductive Stmt where
  | init8  (k0 k1 : Word)
  | init16 (k0 k1 : Word)
  | absorb (m : Word)
  | final  (t : BitVec 3) (w : Word)
  /-- `.cmd c, din, k0, k1`: a raw word. -/
  | cmd    (c : CmdWord) (din k0 k1 : Word)
  deriving DecidableEq, Repr

/-- The word and the port values of a statement; ports a statement leaves out are 0 (R60). -/
def stmtCommand : Stmt → Command
  | .init8 k0 k1      => { cmd := 0x0201, din := 0, key0 := k0, key1 := k1 }
  | .init16 k0 k1     => { cmd := 0x0401, din := 0, key0 := k0, key1 := k1 }
  | .absorb m         => { cmd := 0x0002, din := m, key0 := 0, key1 := 0 }
  | .final t w        => { cmd := 0x0003 ||| (t.setWidth 16 <<< 3), din := w, key0 := 0, key1 := 0 }
  | .cmd c din k0 k1  => { cmd := c, din := din, key0 := k0, key1 := k1 }

/-- The ABSORBs of the full blocks of a message, and the FINAL of what is left (R37, R61). -/
def hashTail : List Byte → List Stmt
  | b0 :: b1 :: b2 :: b3 :: b4 :: b5 :: b6 :: b7 :: rest =>
    .absorb (le64 [b0, b1, b2, b3, b4, b5, b6, b7]) :: hashTail rest
  | rest => [.final (BitVec.ofNat 3 rest.length) (le64 rest)]

/-- HASH.n (R61): INIT, one ABSORB per full block, FINAL. -/
def hashStmts (mode16 : Bool) (k0 k1 : Word) (msg : List Byte) : List Stmt :=
  (if mode16 then .init16 k0 k1 else .init8 k0 k1) :: hashTail msg

/-- The moves of a host that issues these statements in order (R49). -/
def issueAll (stmts : List Stmt) : List HostMove := stmts.map fun st => .issue (stmtCommand st)

end Sys2Proof.Machine
end

