-- ==== Sys2Proof/Machine/Reference.lean ====
section
/-! DEFINITION. The function the engine computes, written without the engine: steps 1 to 5 of the source's algorithm as
spec/42_finalization.md R78 names them, with the second half of R75. It knows no register but v0..v3, no command and no
byte count; claims compare the engine with it. -/

namespace Sys2Proof.Machine

/-- Mix one word in: XOR into v3, C_ROUNDS rounds, XOR into v0 (R67, R72). -/
def refMix (p : Params) (v : VRegs) (m : Word) : VRegs := xorV0 (rounds p.cRounds (xorV3 v m)) m

/-- Mix in every full block and then the length/tail word of a message of `len` bytes (R67, R70, R72). -/
def refMessage (p : Params) (len : Nat) : VRegs → List Byte → VRegs
  | v, b0 :: b1 :: b2 :: b3 :: b4 :: b5 :: b6 :: b7 :: rest =>
    refMessage p len (refMix p v (le64 [b0, b1, b2, b3, b4, b5, b6, b7])) rest
  | v, tail => refMix p v ((BitVec.ofNat 64 (len % 256) <<< 56) ||| le64 tail)

/-- The state after the first finalisation pass (R73). -/
def refFinal (p : Params) (mode16 : Bool) (v : VRegs) : VRegs := rounds p.dRounds (xorV2 v (finalConst mode16))

/-- The bytes of a word, least significant first (R40). -/
def wordBytes (w : Word) : List Byte := (List.range 8).map (byteOf w)

/-- `hash(B, L, k0, k1, n)` (R78): 8 bytes, or 16 with the second half of R75. -/
def siphash (p : Params) (mode16 : Bool) (k0 k1 : Word) (msg : List Byte) : List Byte :=
  let v := refFinal p mode16 (refMessage p msg.length (initRegs mode16 k0 k1) msg)
  if mode16 then wordBytes (foldV v) ++ wordBytes (foldV (rounds p.dRounds (xorV1 v secondConst)))
  else wordBytes (foldV v)

end Sys2Proof.Machine
end

