-- ==== Sys2Proof/Safety.lean ====
section
/-! DEFINITION. The terms claims use: the invariant of the engine's registers, the parts of a state that two runs are
compared on, and the events a group of rounds emits. -/

namespace Sys2Proof.Machine

/-- The sequencer's registers agree with one another (R23, R106 to R109): RC is 0 exactly when no group is in progress
and otherwise within the group's count; rounds run only in PHASE ABSORB; only a FINAL reaches D1 and D2, and only in
16-byte mode D2. -/
abbrev SequencerOk (p : Params) (e : Engine) : Prop :=
  (e.stage = .idle → e.rc = 0) ∧
  (e.stage ≠ .idle → 1 ≤ e.rc.toNat ∧ e.rc.toNat ≤ groupRounds p e.stage ∧ e.phase = .absorb) ∧
  (e.stage = .d1 → e.fin = true) ∧
  (e.stage = .d2 → e.fin = true ∧ e.mode16 = true)

/-- The digest registers hold nothing early and nothing in excess (R19, R66, R112): OUT1 is 0 in 8-byte mode, and while
a computation is open OUT1 is 0, and OUT0 too until the second pass begins. -/
abbrev DigestOk (e : Engine) : Prop :=
  (e.mode16 = false → e.out1 = 0) ∧
  (e.phase = .absorb → e.out1 = 0 ∧ (e.stage ≠ .d2 → e.out0 = 0))

/-- After a rejection no computation is open and no digest is valid (R93, R116). -/
abbrev ErrorOk (e : Engine) : Prop := e.err ≠ .noError → e.phase = .idle

/-- The trace register holds the last event emitted, and nothing is traced when TRACE_EN = 0 (R24, R98, I16). -/
abbrev TraceOk (p : Params) (e : Engine) : Prop :=
  e.trace = e.traceLog.getLastD TraceEvent.zero ∧
  (p.traceEn = false → e.traceLog = [] ∧ e.traceValid = false)

/-- The invariant of the engine. -/
abbrev Engine.Inv (p : Params) (e : Engine) : Prop :=
  SequencerOk p e ∧ DigestOk e ∧ ErrorOk e ∧ TraceOk p e

/-- The invariant of the machine of this hardware. -/
abbrev State.Inv (s : State) : Prop := s.eng.Inv Config.hardware

/-- The engine without its trace register: what tracing may not affect (R99). -/
def untraced (e : Engine) : Engine := { e with trace := TraceEvent.zero, traceValid := false, traceLog := [] }

/-- The ports other than the trace ports (R99). -/
def plainOutputs (e : Engine) : Bool × BitVec 16 × Bool × Option (BitVec 128) :=
  (e.ready, statusWord e, digestValid e, if digestValid e then some (e.out1 ++ e.out0) else none)

/-- The trace events of a group of `n` rounds that starts from `v` (R98). -/
def groupEvents (stage : Stage) (n : Nat) (v : VRegs) : List TraceEvent :=
  (List.range n).map fun i => { stage := stage, idx := BitVec.ofNat 4 i, v := rounds (i + 1) v }

/-- Two data words agree on the lanes below `t` (R38). -/
abbrev agreeOnLanes (t : BitVec 3) (w w' : Word) : Prop := ∀ k, k < t.toNat → byteOf w k = byteOf w' k

/-- The command word that the next step accepts, if it accepts one (R34). -/
def acceptedWord (s : State) : Option CmdWord :=
  match s.host with
  | .issue c :: _ => if s.eng.ready then some c.cmd else none
  | .edge pins :: _ => if !pins.rst && pins.cmdValid && s.eng.ready then some pins.cmd else none
  | _ => none

/-- The next step is a reset edge (R103). -/
def resetsNext (s : State) : Bool :=
  match s.host with
  | .edge pins :: _ => pins.rst
  | _ => false

/-- The word is one of the two INIT words, which every PHASE executes (R57, R58). -/
abbrev isInitWord (w : CmdWord) : Prop := w = 0x0201 ∨ w = 0x0401

/-- The next step accepts an INIT that is executed. -/
abbrev acceptsInit (s : State) : Prop := ∃ w, acceptedWord s = some w ∧ isInitWord w

/-- The next step accepts a command word that decodes to an error: a rejection (R93). -/
abbrev acceptsRejected (s : State) : Prop := ∃ w code, acceptedWord s = some w ∧ decodeAt w s.eng.phase = .error code

/-- The next step accepts a command that is executed (R34, R57). -/
abbrev acceptsExecuted (s : State) : Prop := ∃ w i, acceptedWord s = some w ∧ decodeAt w s.eng.phase = .ok i

/-- The next step is the whole of a FINAL at the command level (R71). -/
abbrev issuesFinal (s : State) : Prop :=
  ∃ c rest t, s.host = .issue c :: rest ∧ s.eng.ready = true ∧ decodeAt c.cmd s.eng.phase = .ok (.final t)

/-- The engine after the commands of a list, one after another, at the command level (R46). -/
def commandsLevel (p : Params) : List Command → Engine → Engine
  | [],      e => e
  | c :: cs, e => commandsLevel p cs (commandLevel p c e)

/-- The rising edges a list of commands takes when the host presents each at the first edge with READY = 1: one accept
edge and its busy edges for each (R110). -/
def edgeTotal (p : Params) : List Command → Engine → Nat
  | [],      _ => 0
  | c :: cs, e => 1 + latency p c e + edgeTotal p cs (commandLevel p c e)

end Sys2Proof.Machine
end

