-- ==== Sys2Proof/Certificates/Slice0/Obligations.lean ====
section
/-! DEFINITION. The statements for the provers, from the numbered rules of spec/. -/

open Sys2Proof Sys2Proof.Machine

/-! ## Reset and the idle engine -/

/-- What reset leaves (R31, R104): every register, and the ports that show them. -/
def Obligations.ResetRegistersAndPorts : Prop :=
  let e := State.reset.eng
  e.v = { v0 := 0, v1 := 0, v2 := 0, v3 := 0 } ∧ e.mreg = 0 ∧ e.out0 = 0 ∧ e.out1 = 0 ∧ e.mode16 = false ∧
  e.blen = 0 ∧ e.err = .noError ∧ e.phase = .idle ∧ e.stage = .idle ∧ e.rc = 0 ∧ e.fin = false ∧ e.ready = true ∧
  e.trace = { stage := .idle, idx := 0, v := { v0 := 0, v1 := 0, v2 := 0, v3 := 0 } } ∧ e.traceValid = false ∧
  statusWord e = 0x0001 ∧ digestValid e = false ∧ (outputs Config.hardware e).cmdReady = true ∧
  (outputs Config.hardware e).trace = none

/-- A rising edge with `rst` = 1 (R103): the reset state from any state, whatever is presented and whatever runs; one
such edge suffices, and several repeat the same reset. -/
def Obligations.ResetEdgeFromAnyState : Prop :=
  (∀ p pins e, pins.rst = true → clockEdge p pins e = State.reset.eng) ∧
  (∀ p pins e, pins ≠ [] → (∀ q ∈ pins, q.rst = true) → clockEdges p pins e = State.reset.eng)

/-- With no host move an idle engine holds its state (R102, R116); only the one-cycle `trace_valid` falls (R98). That no
move means an edge on which nothing is presented is the model's reading, log entry 2. -/
def Obligations.IdleEngineHoldsItsState : Prop :=
  ∀ s, s.host = [] → s.eng.ready = true →
    ∃ t, step s = .next t ∧ t.eng = { s.eng with traceValid := false } ∧ t.host = []

/-! ## Arithmetic and the permutation -/

/-- Bit `i` of a rotation by `r` is bit `(i - r) mod 64` of the value (R79). -/
def Obligations.RotationMovesEachBit : Prop :=
  ∀ (a : Word) (r i : Nat), 0 < r → r < 64 → i < 64 → (rotl a r).getLsbD i = a.getLsbD ((i + 64 - r) % 64)

/-- SipRound is the dataflow of R82, with the rule's corner case. -/
def Obligations.SipRoundDataflow : Prop :=
  (∀ v0 v1 v2 v3 : Word,
    let a0 := v0 + v1
    let b1 := rotl v1 13 ^^^ a0
    let r0 := rotl a0 32
    let a2 := v2 + v3
    let b3 := rotl v3 16 ^^^ a2
    let c0 := r0 + b3
    let c3 := rotl b3 21 ^^^ c0
    let c2 := a2 + b1
    let c1 := rotl b1 17 ^^^ c2
    sipRound { v0 := v0, v1 := v1, v2 := v2, v3 := v3 } = { v0 := c0, v1 := c1, v2 := rotl c2 32, v3 := c3 }) ∧
  sipRound { v0 := 0, v1 := 0, v2 := 0, v3 := 0 } = { v0 := 0, v1 := 0, v2 := 0, v3 := 0 }

/-- SipRound is a bijection on the 256-bit state (R85). -/
def Obligations.SipRoundIsBijective : Prop := Function.Bijective sipRound

/-- Rounds(n) is n successive SipRounds, and for every setting of the parameters ABSORB runs C_ROUNDS of them and FINAL
C_ROUNDS for the tail word, D_ROUNDS for the first pass and, in 16-byte mode, D_ROUNDS more (R5, R67, R71, R83). -/
def Obligations.CommandsUseTheRoundParameters : Prop :=
  (∀ v, rounds 0 v = v) ∧ (∀ n v, rounds (n + 1) v = sipRound (rounds n v)) ∧
  ∀ p c e,
    (decodeAt c.cmd e.phase = .ok .absorb →
      (commandLevel p c e).v =
        (let u := rounds p.cRounds { e.v with v3 := e.v.v3 ^^^ c.din }
         { u with v0 := u.v0 ^^^ c.din })) ∧
    (∀ t, decodeAt c.cmd e.phase = .ok (.final t) →
      let b := tailWord e.blen t c.din
      let u := rounds p.cRounds { e.v with v3 := e.v.v3 ^^^ b }
      let x := rounds p.dRounds { u with v0 := u.v0 ^^^ b, v2 := u.v2 ^^^ (if e.mode16 then 0xEE else 0xFF) }
      let y := rounds p.dRounds { x with v1 := x.v1 ^^^ 0xDD }
      (commandLevel p c e).v = (if e.mode16 then y else x) ∧
      (commandLevel p c e).out0 = x.v0 ^^^ x.v1 ^^^ x.v2 ^^^ x.v3 ∧
      (commandLevel p c e).out1 = (if e.mode16 then y.v0 ^^^ y.v1 ^^^ y.v2 ^^^ y.v3 else e.out1))

/-! ## Encoding -/

/-- The decoder and the encoder agree on every word and every command: no bit of an encoding is dropped, and no word
other than its encoding decodes to a command (R50 to R57). -/
def Obligations.DecodeIsInverseOfEncode : Prop :=
  ∀ (w : CmdWord) (i : Instr), decode w = .ok i ↔ w = encode i

/-- The opcode map: a word decodes to a row's command exactly when it matches the row's pattern under its mask (R62). -/
def Obligations.OpcodeMapDecidesTheCommand : Prop :=
  ∀ w : CmdWord,
    (decode w = .ok .init8 ↔ w &&& 0xFFFF = 0x0201) ∧
    (decode w = .ok .init16 ↔ w &&& 0xFFFF = 0x0401) ∧
    (decode w = .ok .absorb ↔ w &&& 0xFFFF = 0x0002) ∧
    ((∃ t, decode w = .ok (.final t)) ↔ w &&& 0xFFC7 = 0x0003)

/-- Exactly eleven words are executed in PHASE ABSORB, and only the two INIT words in the other phases (R58). -/
def Obligations.ElevenWordsAreExecuted : Prop :=
  ∀ w : CmdWord,
    ((∃ i, decodeAt w .absorb = .ok i) ↔
      w ∈ [0x0201, 0x0401, 0x0002, 0x0003, 0x000B, 0x0013, 0x001B, 0x0023, 0x002B, 0x0033, 0x003B]) ∧
    (∀ phase, phase ≠ .absorb → ((∃ i, decodeAt w phase = .ok i) ↔ (w = 0x0201 ∨ w = 0x0401)))

/-- Which error each word raises, and that it is the first of the priority order (R88, R89, R92). -/
def Obligations.DecodeErrorPriority : Prop :=
  ∀ w : CmdWord,
    let op := w.extractLsb' 0 3
    let t := w.extractLsb' 3 3
    let outlen := w.extractLsb' 6 5
    let rsvd := w.extractLsb' 11 5
    let known := op = 1 ∨ op = 2 ∨ op = 3
    let dirty := rsvd ≠ 0 ∨ ((op = 1 ∨ op = 2) ∧ t ≠ 0) ∨ ((op = 2 ∨ op = 3) ∧ outlen ≠ 0)
    let badLen := op = 1 ∧ outlen ≠ 8 ∧ outlen ≠ 16
    ∀ phase : Phase,
      (decodeAt w phase = .error .illegalOpcode ↔ ¬ known) ∧
      (decodeAt w phase = .error .reservedField ↔ known ∧ dirty) ∧
      (decodeAt w phase = .error .invalidOutlen ↔ known ∧ ¬ dirty ∧ badLen) ∧
      (decodeAt w phase = .error .sequence ↔ known ∧ ¬ dirty ∧ ¬ badLen ∧ op ≠ 1 ∧ phase ≠ .absorb) ∧
      decodeAt w phase ≠ .error .noError

/-- A few words, written out field by field from R50 to R55: RSVD, OUTLEN, T, OP. -/
def Obligations.WrittenOutWordsDecode : Prop :=
  decode 0b00000_01000_000_001 = .ok .init8 ∧
  decode 0b00000_10000_000_001 = .ok .init16 ∧
  decode 0b00000_00000_000_010 = .ok .absorb ∧
  decode 0b00000_00000_000_011 = .ok (.final 0) ∧
  decode 0b00000_00000_101_011 = .ok (.final 5) ∧
  decode 0b00000_00000_111_011 = .ok (.final 7) ∧
  decode 0b00000_00000_000_000 = .error .illegalOpcode ∧
  decode 0b00001_00000_000_010 = .error .reservedField ∧
  decode 0b00000_01100_000_001 = .error .invalidOutlen

/-! ## A step runs the decoded command -/

/-- The step on an issued command is `exec` of what its word decodes to, or the rejection of the word, with the command's
operands on the ports; an accepted command is no longer among the host's moves, and one that meets a busy engine is still
there (R34). -/
def Obligations.StepRunsTheDecodedCommand : Prop :=
  ∀ s c rest, s.host = .issue c :: rest →
    (∀ i, decode c.cmd = .ok i →
      step s = exec i { s with pins := drive c, host := if s.eng.ready then rest else s.host }) ∧
    (∀ code, decode c.cmd = .error code →
      step s = rejectWord code { s with pins := drive c, host := if s.eng.ready then rest else s.host })

/-- A word placed by `withFetchWord` is the one the next step runs (log entry 1). -/
def Obligations.PlacedWordRunsNext : Prop :=
  ∀ (s : State) (w : CmdWord) (i : Instr), s.eng.ready = true → decode w = .ok i →
    step (s.withFetchWord 16 w.toNat) =
      exec i { s with pins := drive { cmd := w, din := s.pins.din, key0 := s.pins.key0, key1 := s.pins.key1 } }

/-- Every move of the host is answered by a next state, but a read of a digest that is not valid, which faults
(R41, R86); an edge move is one rising edge, a reset edge among them, and leaves the later moves (R103, log entries 1, 10
and 11). -/
def Obligations.EveryMoveIsAnswered : Prop :=
  (∀ s, (∃ t, step s = .next t) ∨
    (step s = .fault .digestNotValid ∧ s.eng.phase ≠ .done ∧ ∃ rest, s.host = .readDigest :: rest)) ∧
  (∀ s pins rest, s.host = .edge pins :: rest →
    step s = .next { eng := clockEdge Config.hardware pins s.eng, pins := pins, host := rest } ∧
    (pins.rst = true → step s = .next { eng := State.reset.eng, pins := pins, host := rest }))

/-! ## INIT -/

/-- INIT.8 and INIT.16 on a ready engine, in every PHASE: the registers of R64 with the values the rule gives them, and
every other register as it was. -/
def Obligations.InitLoadsKeyAndConstants : Prop :=
  ∀ s, s.eng.ready = true →
    exec .init8 s = .next { s with eng := { s.eng with
      v := { v0 := 0x736f6d6570736575 ^^^ s.pins.key0, v1 := 0x646f72616e646f6d ^^^ s.pins.key1,
             v2 := 0x6c7967656e657261 ^^^ s.pins.key0, v3 := 0x7465646279746573 ^^^ s.pins.key1 },
      mode16 := false, blen := 0, err := .noError, out0 := 0, out1 := 0, mreg := 0, phase := .absorb,
      traceValid := false } } ∧
    exec .init16 s = .next { s with eng := { s.eng with
      v := { v0 := 0x736f6d6570736575 ^^^ s.pins.key0, v1 := 0x646f72616e646f6d ^^^ s.pins.key1 ^^^ 0xEE,
             v2 := 0x6c7967656e657261 ^^^ s.pins.key0, v3 := 0x7465646279746573 ^^^ s.pins.key1 },
      mode16 := true, blen := 0, err := .noError, out0 := 0, out1 := 0, mreg := 0, phase := .absorb,
      traceValid := false } }

/-- The two modes differ at initialisation in v1 alone (and in MODE16, which records the mode): 0xEE is XORed into it in
16-byte mode, nothing extra anywhere in 8-byte mode; with the rule's example (R65). -/
def Obligations.InitModesDifferOnlyInV1 : Prop :=
  ∀ s, s.eng.ready = true → ∃ t8 t16, exec .init8 s = .next t8 ∧ exec .init16 s = .next t16 ∧
    t16.eng = { t8.eng with v := { t8.eng.v with v1 := t8.eng.v.v1 ^^^ 0xEE }, mode16 := true } ∧
    t8.eng.v = { v0 := 0x736f6d6570736575 ^^^ s.pins.key0, v1 := 0x646f72616e646f6d ^^^ s.pins.key1,
                 v2 := 0x6c7967656e657261 ^^^ s.pins.key0, v3 := 0x7465646279746573 ^^^ s.pins.key1 } ∧
    (s.pins.key1 = 0x0f0e0d0c0b0a0908 →
      t8.eng.v.v1 = 0x6b617f6d656e6665 ∧ t16.eng.v.v1 = 0x6b617f6d656e668b)

/-- What the host can see from a closed computation on does not depend on what the engine's hidden registers hold
(R29, R30): two engines that look alike, ready and with no computation open, look alike after every sequence of edges. -/
def Obligations.LeftoverStateIsHidden : Prop :=
  ∀ p e e', outputs p e = outputs p e' → e.ready = true → e.phase ≠ .absorb →
    ∀ pins, outputs p (clockEdges p pins e) = outputs p (clockEdges p pins e')

/-! ## ABSORB -/

/-- ABSORB on a ready engine in PHASE ABSORB (R67), with the two rounds of this hardware; every other register as it was,
but for the hidden FIN, which is 0 as the accept edge leaves it (R106; that the command level leaves it so is the model's
reading, log entry 8). -/
def Obligations.AbsorbCompressesTheBlock : Prop :=
  ∀ s, s.eng.ready = true → s.eng.phase = .absorb →
    exec .absorb s = .next { s with eng := { s.eng with
      v := (let u := sipRound (sipRound { s.eng.v with v3 := s.eng.v.v3 ^^^ s.pins.din })
            { u with v0 := u.v0 ^^^ s.pins.din }),
      mreg := s.pins.din, blen := s.eng.blen + 8, fin := false, traceValid := false } }

/-- An executed ABSORB adds 8 to BLEN modulo 256, a rejected one leaves it, and after `j` ABSORBs since INIT it is
`8j mod 256` (R68). -/
def Obligations.AbsorbCountsEightBytes : Prop :=
  (∀ s, s.eng.ready = true → s.eng.phase = .absorb → ∃ t, exec .absorb s = .next t ∧
    t.eng.blen.toNat = (s.eng.blen.toNat + 8) % 256) ∧
  (∀ s, s.eng.ready = true → s.eng.phase ≠ .absorb → ∃ t, exec .absorb s = .next t ∧ t.eng.blen = s.eng.blen) ∧
  (∀ p (mode16 : Bool) k0 k1 e (blocks : List Word),
    (commandsLevel p ((if mode16 then stmtCommand (.init16 k0 k1) else stmtCommand (.init8 k0 k1)) ::
      blocks.map fun m => stmtCommand (.absorb m)) e).blen.toNat = (8 * blocks.length) % 256)

/-! ## FINAL -/

/-- The layout of the tail word, byte by byte (R70). -/
def Obligations.TailWordLayout : Prop :=
  ∀ (blen : BitVec 8) (t : BitVec 3) (w : Word),
    tailWord blen t w = ((BitVec.ofNat 64 ((blen.toNat + t.toNat) % 256)) <<< 56) |||
      (w &&& ((1 <<< (8 * t.toNat)) - 1)) ∧
    (byteOf (tailWord blen t w) 7).toNat = (blen.toNat + t.toNat) % 256 ∧
    (∀ k, k < t.toNat → byteOf (tailWord blen t w) k = byteOf w k) ∧
    (∀ k, t.toNat ≤ k → k ≤ 6 → byteOf (tailWord blen t w) k = 0)

/-- The lanes at and above T have no effect: two states whose `din` agree on the lanes below T are taken to the same
engine by FINAL; with T = 0 `din` has no effect at all (R38). -/
def Obligations.FinalIgnoresLanesAboveTheTail : Prop :=
  ∀ (s : State) (t : BitVec 3) (w : Word), agreeOnLanes t s.pins.din w →
    ∃ e, exec (.final t) s = .next { s with eng := e } ∧
      exec (.final t) { s with pins := { s.pins with din := w } } =
        .next { s with eng := e, pins := { s.pins with din := w } }

/-- FINAL in 8-byte mode on a ready engine in PHASE ABSORB (R70 to R74, R76, R77); every other register as it was (OUT1
among them), but for the hidden FIN, which is 1 as the accept edge leaves it (R106; that the command level leaves it so is
the model's reading, log entry 8). -/
def Obligations.FinalProducesEightBytes : Prop :=
  ∀ s (t : BitVec 3), s.eng.ready = true → s.eng.phase = .absorb → s.eng.mode16 = false →
    let b := tailWord s.eng.blen t s.pins.din
    let u := rounds 2 { s.eng.v with v3 := s.eng.v.v3 ^^^ b }
    let x := rounds 4 { u with v0 := u.v0 ^^^ b, v2 := u.v2 ^^^ 0xFF }
    exec (.final t) s = .next { s with eng := { s.eng with
      v := x, mreg := b, blen := s.eng.blen + t.setWidth 8, out0 := x.v0 ^^^ x.v1 ^^^ x.v2 ^^^ x.v3, phase := .done,
      fin := true, traceValid := false } }

/-- FINAL in 16-byte mode on a ready engine in PHASE ABSORB (R70 to R77); every other register as it was, but for the
hidden FIN, which is 1 (R106; log entry 8). -/
def Obligations.FinalProducesSixteenBytes : Prop :=
  ∀ s (t : BitVec 3), s.eng.ready = true → s.eng.phase = .absorb → s.eng.mode16 = true →
    let b := tailWord s.eng.blen t s.pins.din
    let u := rounds 2 { s.eng.v with v3 := s.eng.v.v3 ^^^ b }
    let x := rounds 4 { u with v0 := u.v0 ^^^ b, v2 := u.v2 ^^^ 0xEE }
    let y := rounds 4 { x with v1 := x.v1 ^^^ 0xDD }
    exec (.final t) s = .next { s with eng := { s.eng with
      v := y, mreg := b, blen := s.eng.blen + t.setWidth 8, out0 := x.v0 ^^^ x.v1 ^^^ x.v2 ^^^ x.v3,
      out1 := y.v0 ^^^ y.v1 ^^^ y.v2 ^^^ y.v3, phase := .done, fin := true, traceValid := false } }

/-! ## Rejections -/

/-- A well-formed ABSORB or FINAL in PHASE IDLE or DONE raises SEQUENCE; INIT never does (R91). -/
def Obligations.OutOfOrderCommandsRaiseSequence : Prop :=
  (∀ s i, s.eng.ready = true → s.eng.phase = .idle ∨ s.eng.phase = .done → (i = .absorb ∨ ∃ t, i = .final t) →
    exec i s = .next { s with eng := { s.eng with
      err := if s.eng.err = .noError then .sequence else s.eng.err, phase := .idle, traceValid := false } }) ∧
  (∀ s i, s.eng.ready = true → (i = .init8 ∨ i = .init16) →
    ∃ t, exec i s = .next t ∧ t.eng.err = .noError ∧ t.eng.phase = .absorb) ∧
  (∀ (w : CmdWord) phase, w.extractLsb' 0 3 = 1 → decodeAt w phase ≠ .error .sequence)

/-- What a rejected command does (R93): the first code is kept, PHASE becomes IDLE, nothing else changes, READY stays 1,
no event is emitted; it is so at the step that issues the command and at the accept edge alike; and whatever commands
follow, until an INIT is executed PHASE stays IDLE, no digest is valid, and ABSORB and FINAL are out of sequence. -/
def Obligations.RejectionChangesOnlyErrAndPhase : Prop :=
  (∀ s c rest code, s.host = .issue c :: rest → s.eng.ready = true → decodeAt c.cmd s.eng.phase = .error code →
    ∃ t, step s = .next t ∧ t.host = rest ∧
      t.eng.err = (if s.eng.err = .noError then code else s.eng.err) ∧ t.eng.phase = .idle ∧
      t.eng.v = s.eng.v ∧ t.eng.mreg = s.eng.mreg ∧ t.eng.mode16 = s.eng.mode16 ∧ t.eng.blen = s.eng.blen ∧
      t.eng.out0 = s.eng.out0 ∧ t.eng.out1 = s.eng.out1 ∧ t.eng.stage = s.eng.stage ∧ t.eng.rc = s.eng.rc ∧
      t.eng.fin = s.eng.fin ∧ t.eng.ready = true ∧ t.eng.trace = s.eng.trace ∧ t.eng.traceLog = s.eng.traceLog ∧
      t.eng.traceValid = false) ∧
  (∀ p pins e code, e.ready = true → pins.rst = false → pins.cmdValid = true →
    decodeAt pins.cmd e.phase = .error code →
      clockEdge p pins e =
        { e with err := if e.err = .noError then code else e.err, phase := .idle, traceValid := false }) ∧
  (∀ p c e code, decodeAt c.cmd e.phase = .error code →
    ∀ later : List Command, (∀ l ∈ later, ¬ isInitWord l.cmd) →
      let e' := commandsLevel p (c :: later) e
      e'.phase = .idle ∧ digestValid e' = false ∧ decodeAt (encode .absorb) e'.phase = .error .sequence ∧
      ∀ n : BitVec 3, decodeAt (encode (.final n)) e'.phase = .error .sequence)

/-- ERR keeps the first code: a reset edge and an executed INIT set it to 0, and once it is not 0 every other step leaves
it as it was (R18, R94). -/
def Obligations.ErrKeepsTheFirstCode : Prop :=
  ∀ s t, step s = .next t →
    (resetsNext s = true ∨ acceptsInit s → t.eng.err = .noError) ∧
    (s.eng.err ≠ .noError → ¬ (resetsNext s = true ∨ acceptsInit s) → t.eng.err = s.eng.err)

/-! ## Whole-machine rules -/

/-- What a command on a ready engine leaves as it was: the ports and the host's moves, the sequencer's STAGE and RC, the
trace, READY; and MODE16 unless it is an INIT, MREG when it is not executed, OUT1 in 8-byte mode (R13, R15, R22, R93). -/
def Obligations.CommandFrame : Prop :=
  ∀ i s t, s.eng.ready = true → exec i s = .next t →
    t.pins = s.pins ∧ t.host = s.host ∧ t.eng.stage = s.eng.stage ∧ t.eng.rc = s.eng.rc ∧ t.eng.ready = true ∧
    t.eng.trace = s.eng.trace ∧ t.eng.traceLog = s.eng.traceLog ∧
    (i ≠ .init8 → i ≠ .init16 → t.eng.mode16 = s.eng.mode16) ∧
    (i = .absorb → t.eng.out0 = s.eng.out0 ∧ t.eng.out1 = s.eng.out1) ∧
    (∀ n, i = .final n → s.eng.mode16 = false → t.eng.out1 = s.eng.out1) ∧
    (needsOpen i = true → s.eng.phase ≠ .absorb →
      t.eng.v = s.eng.v ∧ t.eng.mreg = s.eng.mreg ∧ t.eng.blen = s.eng.blen ∧ t.eng.out0 = s.eng.out0 ∧
      t.eng.out1 = s.eng.out1 ∧ t.eng.fin = s.eng.fin) ∧
    (needsOpen i = true → s.eng.phase = .absorb → t.eng.err = s.eng.err)

/-- The listed events move PHASE, and only they (R16). An executed INIT, and nothing else, opens a computation. Only a
completed FINAL makes it DONE: a FINAL issued whole, or the round edge at which READY rises with FIN = 1; and DONE lasts
while nothing is accepted. A reset or a rejection, and nothing else, goes back to IDLE. -/
def Obligations.PhaseMovesOnlyAsListed : Prop :=
  ∀ s t, s.Inv → step s = .next t →
    (t.eng.phase = .absorb → s.eng.phase = .absorb ∨ acceptsInit s) ∧
    (t.eng.phase = .done → (s.eng.phase = .done ∧ acceptedWord s = none) ∨
      (s.eng.phase = .absorb ∧
        (issuesFinal s ∨ (s.eng.ready = false ∧ s.eng.fin = true ∧ t.eng.ready = true)))) ∧
    (t.eng.phase = .idle → s.eng.phase = .idle ∨ resetsNext s = true ∨ acceptsRejected s) ∧
    (acceptsInit s → t.eng.phase = .absorb) ∧
    (issuesFinal s → t.eng.phase = .done) ∧
    (resetsNext s = true ∨ acceptsRejected s → t.eng.phase = .idle)

/-- Who writes what (R13, R15, R17, R19, R22, R108). Besides a reset: v0..v3 change only by a round or an executed
command; MODE16 only by an executed INIT; BLEN and MREG only by an executed command; OUT0 only by an executed INIT, by a
FINAL issued whole or by the last edge of D1; OUT1 only by an executed INIT, by such a FINAL in 16-byte mode or by the
last edge of D2. -/
def Obligations.RegistersHaveOnlyTheirWriters : Prop :=
  ∀ s t, step s = .next t → resetsNext s = false →
    (t.eng.v ≠ s.eng.v → s.eng.ready = false ∨ acceptsExecuted s) ∧
    (t.eng.mode16 ≠ s.eng.mode16 → acceptsInit s) ∧
    (t.eng.blen ≠ s.eng.blen → acceptsExecuted s) ∧
    (t.eng.mreg ≠ s.eng.mreg → acceptsExecuted s) ∧
    (t.eng.out0 ≠ s.eng.out0 →
      acceptsInit s ∨ issuesFinal s ∨ (s.eng.stage = .d1 ∧ ¬ 1 < s.eng.rc)) ∧
    (t.eng.out1 ≠ s.eng.out1 →
      acceptsInit s ∨ (issuesFinal s ∧ s.eng.mode16 = true) ∨ (s.eng.stage = .d2 ∧ ¬ 1 < s.eng.rc))

/-- A busy engine accepts nothing and reads no port: the edge is a round edge, and the command stays the host's next move
(R34, R35, R107, R111). That the step on a command offered to a busy engine is that edge is the model's reading, log
entry 5. -/
def Obligations.BusyEngineAcceptsNothing : Prop :=
  (∀ p e pins pins', e.ready = false → pins.rst = false → pins'.rst = false →
    clockEdge p pins e = clockEdge p pins' e) ∧
  (∀ i s, s.eng.ready = false →
    exec i s = .next { s with eng := clockEdge Config.hardware (release s.pins) s.eng }) ∧
  (∀ s c rest, s.eng.ready = false → s.host = .issue c :: rest →
    step s = .next { eng := clockEdge Config.hardware (drive c) s.eng, pins := drive c, host := s.host })

/-- The ports R56 calls ignored have no effect on the engine: `din` for INIT, the keys for ABSORB and FINAL. -/
def Obligations.IgnoredPortsHaveNoEffect : Prop :=
  ∀ (s : State) (d k0 k1 : Word) (t : BitVec 3),
    (∀ i, i = .init8 ∨ i = .init16 →
      ∃ e, exec i s = .next { s with eng := e } ∧
        exec i { s with pins := { s.pins with din := d } } =
          .next { s with eng := e, pins := { s.pins with din := d } }) ∧
    (∀ i, i = .absorb ∨ i = .final t →
      ∃ e, exec i s = .next { s with eng := e } ∧
        exec i { s with pins := { s.pins with key0 := k0, key1 := k1 } } =
          .next { s with eng := e, pins := { s.pins with key0 := k0, key1 := k1 } })

/-! ## Observation -/

/-- The fields of the status word (R21). -/
def Obligations.StatusWordFields : Prop :=
  ∀ e, (statusWord e).getLsbD 0 = e.ready ∧
    (statusWord e).extractLsb' 1 2 =
      (match e.phase with | .idle => (0 : BitVec 2) | .absorb => 1 | .done => 2) ∧
    (statusWord e).getLsbD 3 = e.mode16 ∧
    (statusWord e).extractLsb' 4 3 =
      (match e.err with
        | .noError => (0 : BitVec 3) | .illegalOpcode => 1 | .reservedField => 2 | .invalidOutlen => 3
        | .sequence => 4) ∧
    (statusWord e).getLsbD 7 = false ∧
    (statusWord e).extractLsb' 8 8 = e.blen

/-- The digest port while it is valid: OUT0 below OUT1, serialised little-endian, the upper half 0 in 8-byte mode in
every state that meets the invariant (R40). -/
def Obligations.DigestPortIsLittleEndian : Prop :=
  ∀ e d, readDigest e = .next d →
    d.extractLsb' 0 64 = e.out0 ∧ d.extractLsb' 64 64 = e.out1 ∧
    (digestBytes false d).length = 8 ∧ (digestBytes true d).length = 16 ∧
    (∀ n, n < 8 → (digestBytes false d)[n]? = some (byteOf e.out0 n) ∧
      (digestBytes true d)[n]? = some (byteOf e.out0 n) ∧
      (digestBytes true d)[n + 8]? = some (byteOf e.out1 n)) ∧
    (e.Inv Config.hardware → e.mode16 = false → d.extractLsb' 64 64 = 0)

/-- The digest is read only in PHASE DONE, else the read faults and gives no value; it stays valid and unchanged until
the next accepted command or reset, and both end its validity (R41, R112). -/
def Obligations.DigestValidUntilNextAccept : Prop :=
  (∀ e, (digestValid e = true ↔ e.phase = .done) ∧
    (e.phase = .done → readDigest e = .next (e.out1 ++ e.out0)) ∧
    (e.phase ≠ .done → readDigest e = .fault .digestNotValid)) ∧
  (∀ s rest, s.host = .readDigest :: rest → s.eng.phase = .done → step s = .next { s with host := rest }) ∧
  (∀ s rest, s.host = .readDigest :: rest → s.eng.phase ≠ .done → step s = .fault .digestNotValid) ∧
  (∀ s t, s.Inv → step s = .next t → s.eng.phase = .done →
    if resetsNext s = true ∨ (acceptedWord s).isSome = true then digestValid t.eng = false
    else digestValid t.eng = true ∧ readDigest t.eng = readDigest s.eng)

/-! ## The invariant -/

/-- The reset state meets the invariant. -/
def Obligations.ResetMeetsTheInvariant : Prop := State.reset.Inv

/-- Every step of this hardware keeps the invariant: the sequencer's registers agree, the digest registers hold nothing
early, an error leaves no computation open, and nothing is traced (R16, R19, R23, R93, R98, R109, R112). -/
def Obligations.StepKeepsTheInvariant : Prop := ∀ s t, s.Inv → step s = .next t → t.Inv

/-- For every legal setting of the parameters, every edge keeps the invariant, and so does every command at the command
level on a ready engine (R5, R7). -/
def Obligations.EdgesAndCommandsKeepTheInvariant : Prop :=
  ∀ p e, p.legal → e.Inv p →
    (∀ pins, (clockEdge p pins e).Inv p) ∧ (e.ready = true → ∀ c, (commandLevel p c e).Inv p)

/-! ## The cycle level -/

/-- The end of a round group folds its closing XOR into the write-back of the last round, and OUT0 and OUT1 are taken
from the round's output before 0xDD (R107, R108), on every register but the trace. -/
def Obligations.LastRoundFoldsTheClosingXor : Prop :=
  ∀ p pins e, pins.rst = false → e.stage ≠ .idle →
    let s := sipRound e.v
    let after := untraced (clockEdge p pins e)
    (1 < e.rc → after = untraced { e with v := s, rc := e.rc - 1 }) ∧
    (e.rc = 1 → e.stage = .c → e.fin = true →
      after = untraced { e with
        v := { s with v0 := s.v0 ^^^ e.mreg, v2 := s.v2 ^^^ (if e.mode16 then 0xEE else 0xFF) }, stage := .d1,
        rc := BitVec.ofNat 4 p.dRounds }) ∧
    (e.rc = 1 → e.stage = .c → e.fin = false →
      after = untraced { e with v := { s with v0 := s.v0 ^^^ e.mreg }, stage := .idle, rc := 0 }) ∧
    (e.rc = 1 → e.stage = .d1 → e.mode16 = true →
      after = untraced { e with
        v := { s with v1 := s.v1 ^^^ 0xDD }, out0 := s.v0 ^^^ s.v1 ^^^ s.v2 ^^^ s.v3, stage := .d2,
        rc := BitVec.ofNat 4 p.dRounds }) ∧
    (e.rc = 1 → e.stage = .d1 → e.mode16 = false →
      after = untraced { e with
        v := s, out0 := s.v0 ^^^ s.v1 ^^^ s.v2 ^^^ s.v3, stage := .idle, rc := 0, phase := .done }) ∧
    (e.rc = 1 → e.stage = .d2 →
      after = untraced { e with
        v := s, out1 := s.v0 ^^^ s.v1 ^^^ s.v2 ^^^ s.v3, stage := .idle, rc := 0, phase := .done })

/-- When READY falls and rises (R109): 1 exactly when STAGE = IDLE; it falls at the accept edge of an ABSORB or FINAL,
stays across an INIT and a rejection, rises at the last round edge and not before, together with PHASE DONE after a
FINAL; a valid digest implies READY. -/
def Obligations.ReadyFallsAndRisesWithTheRounds : Prop :=
  ∀ p e pins, p.legal → e.Inv p → pins.rst = false →
    let e' := clockEdge p pins e
    (e.ready = true ↔ e.stage = .idle) ∧
    (digestValid e = true → e.ready = true) ∧
    (e.ready = true → pins.cmdValid = true → ∀ i, decodeAt pins.cmd e.phase = .ok i →
      e'.ready = !needsOpen i) ∧
    (e.ready = true → pins.cmdValid = true → ∀ code, decodeAt pins.cmd e.phase = .error code → e'.ready = true) ∧
    (e.ready = false →
      (e'.ready = true ↔ e.rc = 1 ∧
        ((e.stage = .c ∧ e.fin = false) ∨ (e.stage = .d1 ∧ e.mode16 = false) ∨ e.stage = .d2))) ∧
    (e.ready = false → e.fin = true → (e'.ready = true ↔ e'.phase = .done))

/-- The cycle level refines the command level (R114), and the busy edges are those of R110: after the accept edge of a
command and as many further edges as its latency, whatever is on the ports, the engine is what the command level says,
and READY was 0 in between. It agrees in every field: those R114 lists, the trace events, and FIN and trace_valid, whose
values after a command-level step are the model's reading, log entry 8. -/
def Obligations.CycleLevelRefinesCommandLevel : Prop :=
  ∀ p c e pins, p.legal → e.ready = true → e.rc = 0 → (∀ q ∈ pins, q.rst = false) →
    pins.length = latency p c e →
      clockEdges p (drive c :: pins) e = commandLevel p c e ∧
      (commandLevel p c e).ready = true ∧
      ∀ k, k < pins.length → (clockEdges p (drive c :: pins.take k) e).ready = false

/-- A message of L bytes takes the number of edges R110 gives, and the count depends on nothing but L and the mode. -/
def Obligations.MessageEdgeCount : Prop :=
  ∀ p (mode16 : Bool) k0 k1 (msg : List Byte) e,
    edgeTotal p ((hashStmts mode16 k0 k1 msg).map stmtCommand) e =
      1 + msg.length / 8 * (1 + p.cRounds) + 1 + p.cRounds + p.dRounds + (if mode16 then p.dRounds else 0)

/-! ## The trace -/

/-- Tracing does not interfere (R99): with TRACE_EN = 0 and with TRACE_EN = 1, after every sequence of edges, every
register but the trace and every port but the trace ports is the same. -/
def Obligations.TracingDoesNotInterfere : Prop :=
  ∀ c d pins e e', untraced e = untraced e' →
    let off := clockEdges { cRounds := c, dRounds := d, traceEn := false } pins e
    let on := clockEdges { cRounds := c, dRounds := d, traceEn := true } pins e'
    untraced off = untraced on ∧ plainOutputs off = plainOutputs on

/-- The events of each command (R98): one per round in order, none for INIT and rejections, none at all when
TRACE_EN = 0. -/
def Obligations.TraceEventsOfEachCommand : Prop :=
  ∀ p c e, ∃ events, (commandLevel p c e).traceLog = e.traceLog ++ events ∧
    events.length = (if p.traceEn then latency p c e else 0) ∧
    (p.traceEn = true → decodeAt c.cmd e.phase = .ok .absorb →
      events = groupEvents .c p.cRounds { e.v with v3 := e.v.v3 ^^^ c.din }) ∧
    (p.traceEn = true → ∀ t, decodeAt c.cmd e.phase = .ok (.final t) →
      let b := tailWord e.blen t c.din
      let u := rounds p.cRounds { e.v with v3 := e.v.v3 ^^^ b }
      let x := { u with v0 := u.v0 ^^^ b, v2 := u.v2 ^^^ (if e.mode16 then 0xEE else 0xFF) }
      let y := rounds p.dRounds x
      events = groupEvents .c p.cRounds { e.v with v3 := e.v.v3 ^^^ b } ++ groupEvents .d1 p.dRounds x ++
        (if e.mode16 then groupEvents .d2 p.dRounds { y with v1 := y.v1 ^^^ 0xDD } else []))

/-- The trace reveals the key (R100): one function recovers both key words from the first event after INIT and the first
block, in either mode. -/
def Obligations.FirstTraceEventRevealsTheKey : Prop :=
  ∃ recover : Bool → Word → TraceEvent → Word × Word,
    ∀ p (mode16 : Bool) k0 k1 m e, p.traceEn = true → 1 ≤ p.cRounds →
      ∃ event rest,
        (commandsLevel p [if mode16 then stmtCommand (.init16 k0 k1) else stmtCommand (.init8 k0 k1),
          stmtCommand (.absorb m)] e).traceLog = e.traceLog ++ event :: rest ∧
        recover mode16 m event = (k0, k1)

/-! ## The whole function -/

/-- Commands issued one after another take effect in order, one a step, each completing before the next (R46); the
machine's run is the command level of this hardware. -/
def Obligations.IssuedCommandsRunInOrder : Prop :=
  ∀ (stmts : List Stmt) (rest : List HostMove) (s : State),
    s.eng.ready = true → s.host = issueAll stmts ++ rest →
    ∃ t, Host.Core.run Sys2Proof.core stmts.length s = .next t ∧
      t.eng = commandsLevel Config.hardware (stmts.map stmtCommand) s.eng ∧ t.host = rest

/-- HASH computes the source's function (R78): for every key, every byte string, both output sizes, all round counts and
every state with READY = 1, the digest bytes are those of `siphash`. -/
def Obligations.HashComputesTheSourceFunction : Prop :=
  ∀ p (mode16 : Bool) k0 k1 (msg : List Byte) e, e.ready = true →
    let e' := commandsLevel p ((hashStmts mode16 k0 k1 msg).map stmtCommand) e
    e'.phase = .done ∧ e'.ready = true ∧ e'.err = .noError ∧
    e'.blen.toNat = msg.length % 256 ∧
    readDigest e' = .next (e'.out1 ++ e'.out0) ∧
    digestBytes mode16 (e'.out1 ++ e'.out0) = siphash p mode16 k0 k1 msg

/-! ## The accept edge -/

/-- The registers right after the accept edge (R106): nothing but trace_valid without a command, the rejection, the whole
of an INIT, and the start of an ABSORB or FINAL: MREG, v3, the new BLEN, STAGE C, RC = C_ROUNDS and FIN, with READY = 0
and the new BLEN already in the status word (R113). The constants of INIT are those of R63, log entry 13. -/
def Obligations.AcceptEdgeRegisters : Prop :=
  ∀ p pins e, pins.rst = false → e.ready = true →
    let e' := clockEdge p pins e
    (pins.cmdValid = false → e' = { e with traceValid := false }) ∧
    (pins.cmdValid = true →
      (∀ code, decodeAt pins.cmd e.phase = .error code →
        e' = { e with err := if e.err = .noError then code else e.err, phase := .idle, traceValid := false }) ∧
      (decodeAt pins.cmd e.phase = .ok .init8 →
        e' = { e with
          v := { v0 := 0x736f6d6570736575 ^^^ pins.key0, v1 := 0x646f72616e646f6d ^^^ pins.key1,
                 v2 := 0x6c7967656e657261 ^^^ pins.key0, v3 := 0x7465646279746573 ^^^ pins.key1 },
          mode16 := false, blen := 0, err := .noError, out0 := 0, out1 := 0, mreg := 0, phase := .absorb,
          traceValid := false }) ∧
      (decodeAt pins.cmd e.phase = .ok .init16 →
        e' = { e with
          v := { v0 := 0x736f6d6570736575 ^^^ pins.key0, v1 := 0x646f72616e646f6d ^^^ pins.key1 ^^^ 0xEE,
                 v2 := 0x6c7967656e657261 ^^^ pins.key0, v3 := 0x7465646279746573 ^^^ pins.key1 },
          mode16 := true, blen := 0, err := .noError, out0 := 0, out1 := 0, mreg := 0, phase := .absorb,
          traceValid := false }) ∧
      (decodeAt pins.cmd e.phase = .ok .absorb →
        e' = { e with
          mreg := pins.din, v := { e.v with v3 := e.v.v3 ^^^ pins.din }, blen := e.blen + 8, stage := .c,
          rc := BitVec.ofNat 4 p.cRounds, fin := false, traceValid := false } ∧
        (statusWord e').getLsbD 0 = false ∧ (statusWord e').extractLsb' 8 8 = e.blen + 8) ∧
      (∀ t, decodeAt pins.cmd e.phase = .ok (.final t) →
        let b := tailWord e.blen t pins.din
        e' = { e with
          mreg := b, v := { e.v with v3 := e.v.v3 ^^^ b }, blen := e.blen + t.setWidth 8, stage := .c,
          rc := BitVec.ofNat 4 p.cRounds, fin := true, traceValid := false } ∧
        (statusWord e').getLsbD 0 = false ∧ (statusWord e').extractLsb' 8 8 = e.blen + t.setWidth 8)) ∧
    (p.legal → (BitVec.ofNat 4 p.cRounds).toNat = p.cRounds)
end

