-- ==== Sys2Proof/Laws/Encoding.lean ====
section
/-! SUPPORT. A command word and its four fields determine each other (spec/30_encoding.md R50). -/

namespace Sys2Proof

theorem fieldsOf_wordOf (f : CmdFields) : fieldsOf (wordOf f) = f := by
  obtain ⟨op, t, o, r⟩ := f
  simp only [fieldsOf, wordOf, CmdFields.mk.injEq]
  refine ⟨?_, ?_, ?_, ?_⟩ <;> refine BitVec.eq_of_getLsbD_eq fun i hi => ?_ <;>
    simp only [BitVec.getLsbD_extractLsb', BitVec.getLsbD_append, hi, decide_true, Bool.true_and]
  · simp [hi]
  · have a : ¬ 3 + i < 3 := by omega
    have b : 3 + i - 3 = i := by omega
    simp [a, b, hi]
  · have a : ¬ 6 + i < 3 := by omega
    have b : 6 + i - 3 - 3 = i := by omega
    have c : ¬ 6 + i - 3 < 3 := by omega
    simp only [a, b, c, hi]; simp
  · have a : ¬ 11 + i < 3 := by omega
    have b : 11 + i - 3 - 3 - 5 = i := by omega
    have c : ¬ 11 + i - 3 < 3 := by omega
    have d : ¬ 11 + i - 3 - 3 < 5 := by omega
    simp only [a, b, c, d]; simp

theorem wordOf_fieldsOf (w : CmdWord) : wordOf (fieldsOf w) = w := by
  simp only [fieldsOf, wordOf]
  refine BitVec.eq_of_getLsbD_eq fun i hi => ?_
  simp only [BitVec.getLsbD_append, BitVec.getLsbD_extractLsb']
  by_cases h1 : i < 3
  · simp [h1]
  by_cases h2 : i - 3 < 3
  · have a : 3 + (i - 3) = i := by omega
    simp [h1, h2, a]
  by_cases h3 : i - 3 - 3 < 5
  · have a : 6 + (i - 3 - 3) = i := by omega
    simp [h1, h2, h3, a]
  · have a : 11 + (i - 3 - 3 - 5) = i := by omega
    have b : i - 3 - 3 - 5 < 5 := by omega
    simp [h1, h2, h3, b, a]

end Sys2Proof
end

