-- ==== Sys2Proof/Laws/Operands.lean ====
section
/-! SUPPORT. The tail mask bit by bit (spec/42_finalization.md R70), and the shape of the HASH expansion and of the
reference function on a message of fewer than 8 bytes (spec/30_encoding.md R61). -/

namespace Sys2Proof.Machine

theorem tailMask_getLsbD (t : BitVec 3) : ∀ j, j < 64 → (tailMask t).getLsbD j = decide (j < 8 * t.toNat) := by
  revert t; decide

theorem le64_getLsbD_ge (l : List Byte) : ∀ i, 8 * l.length ≤ i → (le64 l).getLsbD i = false := by
  induction l with
  | nil => intro i _; simp [le64]
  | cons b bs ih =>
    intro i hi
    simp only [List.length_cons] at hi
    simp only [le64, BitVec.getLsbD_or, BitVec.getLsbD_setWidth, BitVec.getLsbD_shiftLeft]
    rw [ih (i - 8) (by omega), BitVec.getLsbD_of_ge b i (by omega)]
    simp

theorem le64_and_tailMask (l : List Byte) (h : l.length < 8) :
    le64 l &&& tailMask (BitVec.ofNat 3 l.length) = le64 l := by
  refine BitVec.eq_of_getLsbD_eq fun i hi => ?_
  rw [BitVec.getLsbD_and, tailMask_getLsbD _ _ hi, BitVec.toNat_ofNat, Nat.mod_eq_of_lt (by omega)]
  by_cases h1 : i < 8 * l.length
  · simp [h1]
  · rw [le64_getLsbD_ge l i (by omega)]; simp

theorem hashTail_short (l : List Byte) (h : l.length < 8) :
    hashTail l = [.final (BitVec.ofNat 3 l.length) (le64 l)] := by
  rw [hashTail.eq_def]
  split
  · simp only [List.length_cons] at h; omega
  · rfl

theorem refMessage_short (p : Params) (len : Nat) (v : VRegs) (l : List Byte) (h : l.length < 8) :
    refMessage p len v l = refMix p v ((BitVec.ofNat 64 (len % 256) <<< 56) ||| le64 l) := by
  rw [refMessage.eq_def]
  split
  · simp only [List.length_cons] at h; omega
  · rfl

end Sys2Proof.Machine
end

