-- ==== Sys2Proof/Laws/State.lean ====
section
/-! SUPPORT. The field lemmas of the record updates of `Engine` and `State`: one lemma per field per update, true by
`rfl`, so that no later proof unfolds an update. -/

namespace Sys2Proof.Machine

/-! ## `clearTraceValid` (R106) -/

@[simp] theorem clearTraceValid_v (e : Engine) : (clearTraceValid e).v = e.v := rfl
@[simp] theorem clearTraceValid_mode16 (e : Engine) : (clearTraceValid e).mode16 = e.mode16 := rfl
@[simp] theorem clearTraceValid_phase (e : Engine) : (clearTraceValid e).phase = e.phase := rfl
@[simp] theorem clearTraceValid_blen (e : Engine) : (clearTraceValid e).blen = e.blen := rfl
@[simp] theorem clearTraceValid_err (e : Engine) : (clearTraceValid e).err = e.err := rfl
@[simp] theorem clearTraceValid_out0 (e : Engine) : (clearTraceValid e).out0 = e.out0 := rfl
@[simp] theorem clearTraceValid_out1 (e : Engine) : (clearTraceValid e).out1 = e.out1 := rfl
@[simp] theorem clearTraceValid_mreg (e : Engine) : (clearTraceValid e).mreg = e.mreg := rfl
@[simp] theorem clearTraceValid_stage (e : Engine) : (clearTraceValid e).stage = e.stage := rfl
@[simp] theorem clearTraceValid_rc (e : Engine) : (clearTraceValid e).rc = e.rc := rfl
@[simp] theorem clearTraceValid_fin (e : Engine) : (clearTraceValid e).fin = e.fin := rfl
@[simp] theorem clearTraceValid_trace (e : Engine) : (clearTraceValid e).trace = e.trace := rfl
@[simp] theorem clearTraceValid_traceValid (e : Engine) : (clearTraceValid e).traceValid = false := rfl
@[simp] theorem clearTraceValid_traceLog (e : Engine) : (clearTraceValid e).traceLog = e.traceLog := rfl

/-! ## `reject` (R93) -/

@[simp] theorem reject_v (k : ErrCode) (e : Engine) : (reject k e).v = e.v := rfl
@[simp] theorem reject_mode16 (k : ErrCode) (e : Engine) : (reject k e).mode16 = e.mode16 := rfl
@[simp] theorem reject_phase (k : ErrCode) (e : Engine) : (reject k e).phase = .idle := rfl
@[simp] theorem reject_blen (k : ErrCode) (e : Engine) : (reject k e).blen = e.blen := rfl
@[simp] theorem reject_err (k : ErrCode) (e : Engine) : (reject k e).err = if e.err = .noError then k else e.err := rfl
@[simp] theorem reject_out0 (k : ErrCode) (e : Engine) : (reject k e).out0 = e.out0 := rfl
@[simp] theorem reject_out1 (k : ErrCode) (e : Engine) : (reject k e).out1 = e.out1 := rfl
@[simp] theorem reject_mreg (k : ErrCode) (e : Engine) : (reject k e).mreg = e.mreg := rfl
@[simp] theorem reject_stage (k : ErrCode) (e : Engine) : (reject k e).stage = e.stage := rfl
@[simp] theorem reject_rc (k : ErrCode) (e : Engine) : (reject k e).rc = e.rc := rfl
@[simp] theorem reject_fin (k : ErrCode) (e : Engine) : (reject k e).fin = e.fin := rfl
@[simp] theorem reject_trace (k : ErrCode) (e : Engine) : (reject k e).trace = e.trace := rfl
@[simp] theorem reject_traceValid (k : ErrCode) (e : Engine) : (reject k e).traceValid = e.traceValid := rfl
@[simp] theorem reject_traceLog (k : ErrCode) (e : Engine) : (reject k e).traceLog = e.traceLog := rfl

/-! ## `initialise` (R64, R66) -/

@[simp] theorem initialise_v (m : Bool) (k0 k1 : Word) (e : Engine) : (initialise m k0 k1 e).v = initRegs m k0 k1 := rfl
@[simp] theorem initialise_mode16 (m : Bool) (k0 k1 : Word) (e : Engine) : (initialise m k0 k1 e).mode16 = m := rfl
@[simp] theorem initialise_phase (m : Bool) (k0 k1 : Word) (e : Engine) : (initialise m k0 k1 e).phase = .absorb := rfl
@[simp] theorem initialise_blen (m : Bool) (k0 k1 : Word) (e : Engine) : (initialise m k0 k1 e).blen = 0 := rfl
@[simp] theorem initialise_err (m : Bool) (k0 k1 : Word) (e : Engine) : (initialise m k0 k1 e).err = .noError := rfl
@[simp] theorem initialise_out0 (m : Bool) (k0 k1 : Word) (e : Engine) : (initialise m k0 k1 e).out0 = 0 := rfl
@[simp] theorem initialise_out1 (m : Bool) (k0 k1 : Word) (e : Engine) : (initialise m k0 k1 e).out1 = 0 := rfl
@[simp] theorem initialise_mreg (m : Bool) (k0 k1 : Word) (e : Engine) : (initialise m k0 k1 e).mreg = 0 := rfl
@[simp] theorem initialise_stage (m : Bool) (k0 k1 : Word) (e : Engine) : (initialise m k0 k1 e).stage = e.stage := rfl
@[simp] theorem initialise_rc (m : Bool) (k0 k1 : Word) (e : Engine) : (initialise m k0 k1 e).rc = e.rc := rfl
@[simp] theorem initialise_fin (m : Bool) (k0 k1 : Word) (e : Engine) : (initialise m k0 k1 e).fin = e.fin := rfl
@[simp] theorem initialise_trace (m : Bool) (k0 k1 : Word) (e : Engine) : (initialise m k0 k1 e).trace = e.trace := rfl
@[simp] theorem initialise_traceValid (m : Bool) (k0 k1 : Word) (e : Engine) : (initialise m k0 k1 e).traceValid = e.traceValid := rfl
@[simp] theorem initialise_traceLog (m : Bool) (k0 k1 : Word) (e : Engine) : (initialise m k0 k1 e).traceLog = e.traceLog := rfl

/-! ## `acceptBlock` (R106) -/

@[simp] theorem acceptBlock_v (p : Params) (m : Word) (e : Engine) : (acceptBlock p m e).v = xorV3 e.v m := rfl
@[simp] theorem acceptBlock_mode16 (p : Params) (m : Word) (e : Engine) : (acceptBlock p m e).mode16 = e.mode16 := rfl
@[simp] theorem acceptBlock_phase (p : Params) (m : Word) (e : Engine) : (acceptBlock p m e).phase = e.phase := rfl
@[simp] theorem acceptBlock_blen (p : Params) (m : Word) (e : Engine) : (acceptBlock p m e).blen = blenBlock e.blen := rfl
@[simp] theorem acceptBlock_err (p : Params) (m : Word) (e : Engine) : (acceptBlock p m e).err = e.err := rfl
@[simp] theorem acceptBlock_out0 (p : Params) (m : Word) (e : Engine) : (acceptBlock p m e).out0 = e.out0 := rfl
@[simp] theorem acceptBlock_out1 (p : Params) (m : Word) (e : Engine) : (acceptBlock p m e).out1 = e.out1 := rfl
@[simp] theorem acceptBlock_mreg (p : Params) (m : Word) (e : Engine) : (acceptBlock p m e).mreg = m := rfl
@[simp] theorem acceptBlock_stage (p : Params) (m : Word) (e : Engine) : (acceptBlock p m e).stage = .c := rfl
@[simp] theorem acceptBlock_rc (p : Params) (m : Word) (e : Engine) : (acceptBlock p m e).rc = BitVec.ofNat 4 p.cRounds := rfl
@[simp] theorem acceptBlock_fin (p : Params) (m : Word) (e : Engine) : (acceptBlock p m e).fin = false := rfl
@[simp] theorem acceptBlock_trace (p : Params) (m : Word) (e : Engine) : (acceptBlock p m e).trace = e.trace := rfl
@[simp] theorem acceptBlock_traceValid (p : Params) (m : Word) (e : Engine) : (acceptBlock p m e).traceValid = e.traceValid := rfl
@[simp] theorem acceptBlock_traceLog (p : Params) (m : Word) (e : Engine) : (acceptBlock p m e).traceLog = e.traceLog := rfl

/-! ## `acceptTail` (R106) -/

@[simp] theorem acceptTail_v (p : Params) (t : BitVec 3) (w : Word) (e : Engine) : (acceptTail p t w e).v = xorV3 e.v (tailWord e.blen t w) := rfl
@[simp] theorem acceptTail_mode16 (p : Params) (t : BitVec 3) (w : Word) (e : Engine) : (acceptTail p t w e).mode16 = e.mode16 := rfl
@[simp] theorem acceptTail_phase (p : Params) (t : BitVec 3) (w : Word) (e : Engine) : (acceptTail p t w e).phase = e.phase := rfl
@[simp] theorem acceptTail_blen (p : Params) (t : BitVec 3) (w : Word) (e : Engine) : (acceptTail p t w e).blen = blenTail e.blen t := rfl
@[simp] theorem acceptTail_err (p : Params) (t : BitVec 3) (w : Word) (e : Engine) : (acceptTail p t w e).err = e.err := rfl
@[simp] theorem acceptTail_out0 (p : Params) (t : BitVec 3) (w : Word) (e : Engine) : (acceptTail p t w e).out0 = e.out0 := rfl
@[simp] theorem acceptTail_out1 (p : Params) (t : BitVec 3) (w : Word) (e : Engine) : (acceptTail p t w e).out1 = e.out1 := rfl
@[simp] theorem acceptTail_mreg (p : Params) (t : BitVec 3) (w : Word) (e : Engine) : (acceptTail p t w e).mreg = tailWord e.blen t w := rfl
@[simp] theorem acceptTail_stage (p : Params) (t : BitVec 3) (w : Word) (e : Engine) : (acceptTail p t w e).stage = .c := rfl
@[simp] theorem acceptTail_rc (p : Params) (t : BitVec 3) (w : Word) (e : Engine) : (acceptTail p t w e).rc = BitVec.ofNat 4 p.cRounds := rfl
@[simp] theorem acceptTail_fin (p : Params) (t : BitVec 3) (w : Word) (e : Engine) : (acceptTail p t w e).fin = true := rfl
@[simp] theorem acceptTail_trace (p : Params) (t : BitVec 3) (w : Word) (e : Engine) : (acceptTail p t w e).trace = e.trace := rfl
@[simp] theorem acceptTail_traceValid (p : Params) (t : BitVec 3) (w : Word) (e : Engine) : (acceptTail p t w e).traceValid = e.traceValid := rfl
@[simp] theorem acceptTail_traceLog (p : Params) (t : BitVec 3) (w : Word) (e : Engine) : (acceptTail p t w e).traceLog = e.traceLog := rfl

/-! ## `present`, `clockState`, `release` and `drive` -/

@[simp] theorem present_eng (c : Command) (s : State) : (present c s).eng = s.eng := rfl
@[simp] theorem present_pins (c : Command) (s : State) : (present c s).pins = drive c := rfl
@[simp] theorem present_host (c : Command) (s : State) :
    (present c s).host = if s.eng.ready then s.host.tail else s.host := rfl
@[simp] theorem clockState_eng (q : Pins) (s : State) : (clockState q s).eng = clockEdge Config.hardware q s.eng := rfl
@[simp] theorem clockState_pins (q : Pins) (s : State) : (clockState q s).pins = q := rfl
@[simp] theorem clockState_host (q : Pins) (s : State) : (clockState q s).host = s.host := rfl
@[simp] theorem release_rst (q : Pins) : (release q).rst = false := rfl
@[simp] theorem release_cmdValid (q : Pins) : (release q).cmdValid = false := rfl
@[simp] theorem drive_rst (c : Command) : (drive c).rst = false := rfl
@[simp] theorem drive_cmdValid (c : Command) : (drive c).cmdValid = true := rfl
@[simp] theorem drive_cmd (c : Command) : (drive c).cmd = c.cmd := rfl
@[simp] theorem drive_din (c : Command) : (drive c).din = c.din := rfl
@[simp] theorem drive_key0 (c : Command) : (drive c).key0 = c.key0 := rfl
@[simp] theorem drive_key1 (c : Command) : (drive c).key1 = c.key1 := rfl

end Sys2Proof.Machine
end

