-- ==== Sys2Proof/Laws/Ops.lean ====
section
/-! SUPPORT. What the shared operations can do, said once for each: rounds, the parts of ABSORB and FINAL, the round
edge, a command at either level, and the step. -/

namespace Sys2Proof.Machine

/-! ## READY -/

theorem ready_iff (e : Engine) : e.ready = true ↔ e.stage = .idle := by simp [Engine.ready]

theorem busy_iff (e : Engine) : e.ready = false ↔ e.stage ≠ .idle := by simp [Engine.ready]

theorem ready_congr {e e' : Engine} (h : e.stage = e'.stage) : e.ready = e'.ready := by simp [Engine.ready, h]

/-! ## A traced round and a traced group (R83, R98) -/

@[simp] theorem emitTrace_v (p : Params) (ev : TraceEvent) (e : Engine) : (emitTrace p ev e).v = e.v := by
  unfold emitTrace; split <;> simp_all
@[simp] theorem emitTrace_mode16 (p : Params) (ev : TraceEvent) (e : Engine) : (emitTrace p ev e).mode16 = e.mode16 := by
  unfold emitTrace; split <;> simp_all
@[simp] theorem emitTrace_phase (p : Params) (ev : TraceEvent) (e : Engine) : (emitTrace p ev e).phase = e.phase := by
  unfold emitTrace; split <;> simp_all
@[simp] theorem emitTrace_blen (p : Params) (ev : TraceEvent) (e : Engine) : (emitTrace p ev e).blen = e.blen := by
  unfold emitTrace; split <;> simp_all
@[simp] theorem emitTrace_err (p : Params) (ev : TraceEvent) (e : Engine) : (emitTrace p ev e).err = e.err := by
  unfold emitTrace; split <;> simp_all
@[simp] theorem emitTrace_out0 (p : Params) (ev : TraceEvent) (e : Engine) : (emitTrace p ev e).out0 = e.out0 := by
  unfold emitTrace; split <;> simp_all
@[simp] theorem emitTrace_out1 (p : Params) (ev : TraceEvent) (e : Engine) : (emitTrace p ev e).out1 = e.out1 := by
  unfold emitTrace; split <;> simp_all
@[simp] theorem emitTrace_mreg (p : Params) (ev : TraceEvent) (e : Engine) : (emitTrace p ev e).mreg = e.mreg := by
  unfold emitTrace; split <;> simp_all
@[simp] theorem emitTrace_stage (p : Params) (ev : TraceEvent) (e : Engine) : (emitTrace p ev e).stage = e.stage := by
  unfold emitTrace; split <;> simp_all
@[simp] theorem emitTrace_rc (p : Params) (ev : TraceEvent) (e : Engine) : (emitTrace p ev e).rc = e.rc := by
  unfold emitTrace; split <;> simp_all
@[simp] theorem emitTrace_fin (p : Params) (ev : TraceEvent) (e : Engine) : (emitTrace p ev e).fin = e.fin := by
  unfold emitTrace; split <;> simp_all
@[simp] theorem emitTrace_trace (p : Params) (ev : TraceEvent) (e : Engine) : (emitTrace p ev e).trace = if p.traceEn then ev else e.trace := by
  unfold emitTrace; split <;> simp_all
@[simp] theorem emitTrace_traceValid (p : Params) (ev : TraceEvent) (e : Engine) : (emitTrace p ev e).traceValid = if p.traceEn then true else e.traceValid := by
  unfold emitTrace; split <;> simp_all
@[simp] theorem emitTrace_traceLog (p : Params) (ev : TraceEvent) (e : Engine) : (emitTrace p ev e).traceLog = if p.traceEn then e.traceLog ++ [ev] else e.traceLog := by
  unfold emitTrace; split <;> simp_all

@[simp] theorem runRounds_v (p : Params) (st : Stage) (n : Nat) (e : Engine) : (runRounds p st n e).v = rounds n e.v := by
  induction n with
  | zero => rfl
  | succ n ih => simp [runRounds, oneRound, rounds, ih]
@[simp] theorem runRounds_mode16 (p : Params) (st : Stage) (n : Nat) (e : Engine) : (runRounds p st n e).mode16 = e.mode16 := by
  induction n with
  | zero => rfl
  | succ n ih => simp [runRounds, oneRound, ih]
@[simp] theorem runRounds_phase (p : Params) (st : Stage) (n : Nat) (e : Engine) : (runRounds p st n e).phase = e.phase := by
  induction n with
  | zero => rfl
  | succ n ih => simp [runRounds, oneRound, ih]
@[simp] theorem runRounds_blen (p : Params) (st : Stage) (n : Nat) (e : Engine) : (runRounds p st n e).blen = e.blen := by
  induction n with
  | zero => rfl
  | succ n ih => simp [runRounds, oneRound, ih]
@[simp] theorem runRounds_err (p : Params) (st : Stage) (n : Nat) (e : Engine) : (runRounds p st n e).err = e.err := by
  induction n with
  | zero => rfl
  | succ n ih => simp [runRounds, oneRound, ih]
@[simp] theorem runRounds_out0 (p : Params) (st : Stage) (n : Nat) (e : Engine) : (runRounds p st n e).out0 = e.out0 := by
  induction n with
  | zero => rfl
  | succ n ih => simp [runRounds, oneRound, ih]
@[simp] theorem runRounds_out1 (p : Params) (st : Stage) (n : Nat) (e : Engine) : (runRounds p st n e).out1 = e.out1 := by
  induction n with
  | zero => rfl
  | succ n ih => simp [runRounds, oneRound, ih]
@[simp] theorem runRounds_mreg (p : Params) (st : Stage) (n : Nat) (e : Engine) : (runRounds p st n e).mreg = e.mreg := by
  induction n with
  | zero => rfl
  | succ n ih => simp [runRounds, oneRound, ih]
@[simp] theorem runRounds_stage (p : Params) (st : Stage) (n : Nat) (e : Engine) : (runRounds p st n e).stage = e.stage := by
  induction n with
  | zero => rfl
  | succ n ih => simp [runRounds, oneRound, ih]
@[simp] theorem runRounds_rc (p : Params) (st : Stage) (n : Nat) (e : Engine) : (runRounds p st n e).rc = e.rc := by
  induction n with
  | zero => rfl
  | succ n ih => simp [runRounds, oneRound, ih]
@[simp] theorem runRounds_fin (p : Params) (st : Stage) (n : Nat) (e : Engine) : (runRounds p st n e).fin = e.fin := by
  induction n with
  | zero => rfl
  | succ n ih => simp [runRounds, oneRound, ih]

theorem groupEvents_succ (st : Stage) (n : Nat) (v : VRegs) :
    groupEvents st (n + 1) v =
      groupEvents st n v ++ [{ stage := st, idx := BitVec.ofNat 4 n, v := rounds (n + 1) v }] := by
  simp [groupEvents, List.range_succ]

@[simp] theorem groupEvents_length (st : Stage) (n : Nat) (v : VRegs) : (groupEvents st n v).length = n := by
  simp [groupEvents]

@[simp] theorem runRounds_traceLog (p : Params) (st : Stage) (n : Nat) (e : Engine) :
    (runRounds p st n e).traceLog = e.traceLog ++ (if p.traceEn then groupEvents st n e.v else []) := by
  induction n with
  | zero => simp [runRounds, groupEvents]
  | succ n ih => cases h : p.traceEn <;> simp_all [runRounds, oneRound, groupEvents_succ, rounds]

@[simp] theorem runRounds_trace (p : Params) (st : Stage) (n : Nat) (e : Engine) :
    (runRounds p st n e).trace = if p.traceEn = true ∧ 0 < n then
      { stage := st, idx := BitVec.ofNat 4 (n - 1), v := rounds n e.v } else e.trace := by
  induction n with
  | zero => simp [runRounds]
  | succ n ih => cases h : p.traceEn <;> simp_all [runRounds, oneRound, rounds]

@[simp] theorem runRounds_traceValid (p : Params) (st : Stage) (n : Nat) (e : Engine) :
    (runRounds p st n e).traceValid = (e.traceValid || (p.traceEn && decide (0 < n))) := by
  induction n with
  | zero => simp [runRounds]
  | succ n ih => cases h : p.traceEn <;> simp_all [runRounds, oneRound]

/-- With the trace port absent a group of rounds changes v0..v3 and nothing else. -/
theorem runRounds_off (p : Params) (h : p.traceEn = false) (st : Stage) (n : Nat) (e : Engine) :
    runRounds p st n e = { e with v := rounds n e.v } := by
  induction n with
  | zero => rfl
  | succ n ih => simp [runRounds, oneRound, emitTrace, h, rounds, ih]

theorem runRounds_hardware (st : Stage) (n : Nat) (e : Engine) :
    runRounds Config.hardware st n e = { e with v := rounds n e.v } := runRounds_off _ rfl _ _ _

/-! ## ABSORB and FINAL at the command level (R67, R71) -/

@[simp] theorem compress_v (p : Params) (m : Word) (e : Engine) : (compress p m e).v = refMix p e.v m := by
  simp [compress, refMix]
@[simp] theorem compress_mode16 (p : Params) (m : Word) (e : Engine) : (compress p m e).mode16 = e.mode16 := by
  simp [compress]
@[simp] theorem compress_phase (p : Params) (m : Word) (e : Engine) : (compress p m e).phase = e.phase := by
  simp [compress]
@[simp] theorem compress_blen (p : Params) (m : Word) (e : Engine) : (compress p m e).blen = e.blen := by
  simp [compress]
@[simp] theorem compress_err (p : Params) (m : Word) (e : Engine) : (compress p m e).err = e.err := by
  simp [compress]
@[simp] theorem compress_out0 (p : Params) (m : Word) (e : Engine) : (compress p m e).out0 = e.out0 := by
  simp [compress]
@[simp] theorem compress_out1 (p : Params) (m : Word) (e : Engine) : (compress p m e).out1 = e.out1 := by
  simp [compress]
@[simp] theorem compress_mreg (p : Params) (m : Word) (e : Engine) : (compress p m e).mreg = m := by
  simp [compress]
@[simp] theorem compress_stage (p : Params) (m : Word) (e : Engine) : (compress p m e).stage = e.stage := by
  simp [compress]
@[simp] theorem compress_rc (p : Params) (m : Word) (e : Engine) : (compress p m e).rc = e.rc := by
  simp [compress]
@[simp] theorem compress_fin (p : Params) (m : Word) (e : Engine) : (compress p m e).fin = e.fin := by
  simp [compress]
@[simp] theorem compress_traceLog (p : Params) (m : Word) (e : Engine) : (compress p m e).traceLog =
    e.traceLog ++ (if p.traceEn then groupEvents .c p.cRounds (xorV3 e.v m) else []) := by
  simp [compress]

@[simp] theorem absorb_v (p : Params) (m : Word) (e : Engine) : (absorb p m e).v = refMix p e.v m := by
  simp [absorb]
@[simp] theorem absorb_mode16 (p : Params) (m : Word) (e : Engine) : (absorb p m e).mode16 = e.mode16 := by
  simp [absorb]
@[simp] theorem absorb_phase (p : Params) (m : Word) (e : Engine) : (absorb p m e).phase = e.phase := by
  simp [absorb]
@[simp] theorem absorb_blen (p : Params) (m : Word) (e : Engine) : (absorb p m e).blen = blenBlock e.blen := by
  simp [absorb]
@[simp] theorem absorb_err (p : Params) (m : Word) (e : Engine) : (absorb p m e).err = e.err := by
  simp [absorb]
@[simp] theorem absorb_out0 (p : Params) (m : Word) (e : Engine) : (absorb p m e).out0 = e.out0 := by
  simp [absorb]
@[simp] theorem absorb_out1 (p : Params) (m : Word) (e : Engine) : (absorb p m e).out1 = e.out1 := by
  simp [absorb]
@[simp] theorem absorb_mreg (p : Params) (m : Word) (e : Engine) : (absorb p m e).mreg = m := by
  simp [absorb]
@[simp] theorem absorb_stage (p : Params) (m : Word) (e : Engine) : (absorb p m e).stage = e.stage := by
  simp [absorb]
@[simp] theorem absorb_rc (p : Params) (m : Word) (e : Engine) : (absorb p m e).rc = e.rc := by
  simp [absorb]
@[simp] theorem absorb_fin (p : Params) (m : Word) (e : Engine) : (absorb p m e).fin = false := by
  simp [absorb]
@[simp] theorem absorb_traceLog (p : Params) (m : Word) (e : Engine) : (absorb p m e).traceLog =
    e.traceLog ++ (if p.traceEn then groupEvents .c p.cRounds (xorV3 e.v m) else []) := by
  simp [absorb]

/-- The state registers after the first finalisation pass of a FINAL (R71). -/
abbrev afterD1 (p : Params) (t : BitVec 3) (w : Word) (e : Engine) : VRegs :=
  refFinal p e.mode16 (refMix p e.v (tailWord e.blen t w))

@[simp] theorem finalise_v (p : Params) (t : BitVec 3) (w : Word) (e : Engine) : (finalise p t w e).v =
    (if e.mode16 then rounds p.dRounds (xorV1 (afterD1 p t w e) secondConst) else afterD1 p t w e) := by
  cases h : e.mode16 <;> simp [finalise, firstPass, secondPass, refFinal, h]
@[simp] theorem finalise_mode16 (p : Params) (t : BitVec 3) (w : Word) (e : Engine) : (finalise p t w e).mode16 = e.mode16 := by
  cases h : e.mode16 <;> simp [finalise, firstPass, secondPass, h]
@[simp] theorem finalise_phase (p : Params) (t : BitVec 3) (w : Word) (e : Engine) : (finalise p t w e).phase = .done := by
  cases h : e.mode16 <;> simp [finalise, firstPass, secondPass, h]
@[simp] theorem finalise_blen (p : Params) (t : BitVec 3) (w : Word) (e : Engine) : (finalise p t w e).blen = blenTail e.blen t := by
  cases h : e.mode16 <;> simp [finalise, firstPass, secondPass, h]
@[simp] theorem finalise_err (p : Params) (t : BitVec 3) (w : Word) (e : Engine) : (finalise p t w e).err = e.err := by
  cases h : e.mode16 <;> simp [finalise, firstPass, secondPass, h]
@[simp] theorem finalise_out0 (p : Params) (t : BitVec 3) (w : Word) (e : Engine) : (finalise p t w e).out0 = foldV (afterD1 p t w e) := by
  cases h : e.mode16 <;> simp [finalise, firstPass, secondPass, refFinal, h]
@[simp] theorem finalise_out1 (p : Params) (t : BitVec 3) (w : Word) (e : Engine) : (finalise p t w e).out1 =
    (if e.mode16 then foldV (rounds p.dRounds (xorV1 (afterD1 p t w e) secondConst)) else e.out1) := by
  cases h : e.mode16 <;> simp [finalise, firstPass, secondPass, refFinal, h]
@[simp] theorem finalise_mreg (p : Params) (t : BitVec 3) (w : Word) (e : Engine) : (finalise p t w e).mreg = tailWord e.blen t w := by
  cases h : e.mode16 <;> simp [finalise, firstPass, secondPass, h]
@[simp] theorem finalise_stage (p : Params) (t : BitVec 3) (w : Word) (e : Engine) : (finalise p t w e).stage = e.stage := by
  cases h : e.mode16 <;> simp [finalise, firstPass, secondPass, h]
@[simp] theorem finalise_rc (p : Params) (t : BitVec 3) (w : Word) (e : Engine) : (finalise p t w e).rc = e.rc := by
  cases h : e.mode16 <;> simp [finalise, firstPass, secondPass, h]
@[simp] theorem finalise_fin (p : Params) (t : BitVec 3) (w : Word) (e : Engine) : (finalise p t w e).fin = true := by
  cases h : e.mode16 <;> simp [finalise, firstPass, secondPass, h]

@[simp] theorem finalise_traceLog (p : Params) (t : BitVec 3) (w : Word) (e : Engine) :
    (finalise p t w e).traceLog = e.traceLog ++ (if p.traceEn then
      groupEvents .c p.cRounds (xorV3 e.v (tailWord e.blen t w)) ++
      groupEvents .d1 p.dRounds (xorV2 (refMix p e.v (tailWord e.blen t w)) (finalConst e.mode16)) ++
      (if e.mode16 then groupEvents .d2 p.dRounds (xorV1 (afterD1 p t w e) secondConst) else []) else []) := by
  cases h : e.mode16 <;> cases h' : p.traceEn <;> simp [finalise, firstPass, secondPass, refFinal, h, h']

/-! ## The round edge (R107, R108) -/

/-- The trace event of a round edge (R98, R107). -/
abbrev roundEvent (p : Params) (e : Engine) : TraceEvent :=
  { stage := e.stage, idx := BitVec.ofNat 4 (groupRounds p e.stage) - e.rc, v := sipRound e.v }

/-- A round edge that is not the last of its group. -/
theorem roundEdge_more (p : Params) (e : Engine) (h : 1 < e.rc) :
    roundEdge p e = { emitTrace p (roundEvent p e) e with v := sipRound e.v, rc := e.rc - 1 } := by
  unfold roundEdge; rw [if_pos h]

/-- The last round edge of a group. -/
theorem roundEdge_last (p : Params) (e : Engine) (h : ¬ 1 < e.rc) :
    roundEdge p e = endOfGroup p (sipRound e.v) (emitTrace p (roundEvent p e) e) := by
  unfold roundEdge; rw [if_neg h]

@[simp] theorem roundEdge_mode16 (p : Params) (e : Engine) : (roundEdge p e).mode16 = e.mode16 := by
  unfold roundEdge endOfGroup; dsimp only; repeat' split
  all_goals simp
@[simp] theorem roundEdge_blen (p : Params) (e : Engine) : (roundEdge p e).blen = e.blen := by
  unfold roundEdge endOfGroup; dsimp only; repeat' split
  all_goals simp
@[simp] theorem roundEdge_err (p : Params) (e : Engine) : (roundEdge p e).err = e.err := by
  unfold roundEdge endOfGroup; dsimp only; repeat' split
  all_goals simp
@[simp] theorem roundEdge_mreg (p : Params) (e : Engine) : (roundEdge p e).mreg = e.mreg := by
  unfold roundEdge endOfGroup; dsimp only; repeat' split
  all_goals simp
@[simp] theorem roundEdge_fin (p : Params) (e : Engine) : (roundEdge p e).fin = e.fin := by
  unfold roundEdge endOfGroup; dsimp only; repeat' split
  all_goals simp

/-- Only the last round of D1 writes OUT0 (R108). -/
theorem roundEdge_out0 (p : Params) (e : Engine) (h : ¬ (e.stage = .d1 ∧ ¬ 1 < e.rc)) : (roundEdge p e).out0 = e.out0 := by
  by_cases hl : 1 < e.rc
  · simp [roundEdge_more p e hl]
  · have hs : e.stage ≠ .d1 := fun hs => h ⟨hs, hl⟩
    rw [roundEdge_last p e hl]; unfold endOfGroup; repeat' split
    all_goals simp_all

/-- Only the last round of D2 writes OUT1 (R108). -/
theorem roundEdge_out1 (p : Params) (e : Engine) (h : ¬ (e.stage = .d2 ∧ ¬ 1 < e.rc)) : (roundEdge p e).out1 = e.out1 := by
  by_cases hl : 1 < e.rc
  · simp [roundEdge_more p e hl]
  · have hs : e.stage ≠ .d2 := fun hs => h ⟨hs, hl⟩
    rw [roundEdge_last p e hl]; unfold endOfGroup; repeat' split
    all_goals simp_all

/-- A round edge that makes PHASE DONE makes READY 1 (R109). -/
theorem roundEdge_done (p : Params) (e : Engine) (h : e.phase ≠ .done) (h' : (roundEdge p e).phase = .done) :
    (e.stage = .d1 ∨ e.stage = .d2) ∧ (roundEdge p e).ready = true := by
  revert h'; unfold roundEdge endOfGroup Engine.ready; dsimp only; repeat' split
  all_goals simp_all

theorem roundEdge_phase (p : Params) (e : Engine) :
    (roundEdge p e).phase = e.phase ∨ (roundEdge p e).phase = .done := by
  unfold roundEdge endOfGroup; dsimp only; repeat' split
  all_goals simp

/-! ## A command at either level -/

theorem decodeAt_needsOpen {w : CmdWord} {ph : Phase} {i : Instr} (h : decodeAt w ph = .ok i)
    (hn : needsOpen i = true) : ph = .absorb := by
  unfold decodeAt at h
  split at h
  · cases h
  · split at h
    · cases h
    · cases h; by_contra hp; simp_all

theorem decode_of_decodeAt {w : CmdWord} {ph : Phase} {i : Instr} (h : decodeAt w ph = .ok i) : decode w = .ok i := by
  unfold decodeAt at h
  split at h
  · cases h
  · rename_i hd
    split at h
    · cases h
    · cases h; exact hd

/-- Everything an accepted command can do at the command level (R57, R64, R67, R71, R93). -/
theorem commandLevel_cases (p : Params) (c : Command) (e : Engine) :
    (∃ k, decodeAt c.cmd e.phase = .error k ∧ commandLevel p c e = reject k (clearTraceValid e)) ∨
    (∃ m, decodeAt c.cmd e.phase = .ok (if m then .init16 else .init8) ∧
      commandLevel p c e = initialise m c.key0 c.key1 (clearTraceValid e)) ∨
    (e.phase = .absorb ∧ decodeAt c.cmd e.phase = .ok .absorb ∧
      commandLevel p c e = absorb p c.din (clearTraceValid e)) ∨
    (∃ t, e.phase = .absorb ∧ decodeAt c.cmd e.phase = .ok (.final t) ∧
      commandLevel p c e = finalise p t c.din (clearTraceValid e)) := by
  unfold commandLevel
  simp only [clearTraceValid_phase]
  rcases hd : decodeAt c.cmd e.phase with k | i
  · exact .inl ⟨k, rfl, rfl⟩
  cases i with
  | init8 => exact .inr (.inl ⟨false, rfl, rfl⟩)
  | init16 => exact .inr (.inl ⟨true, rfl, rfl⟩)
  | absorb => exact .inr (.inr (.inl ⟨decodeAt_needsOpen hd rfl, rfl, rfl⟩))
  | final t => exact .inr (.inr (.inr ⟨t, decodeAt_needsOpen hd rfl, rfl, rfl⟩))

/-- Everything an accept edge can do (R106). -/
theorem acceptEdge_cases (p : Params) (q : Pins) (e : Engine) :
    (q.cmdValid = false ∧ acceptEdge p q e = clearTraceValid e) ∨
    (q.cmdValid = true ∧
      ((∃ k, decodeAt q.cmd e.phase = .error k ∧ acceptEdge p q e = reject k (clearTraceValid e)) ∨
       (∃ m, decodeAt q.cmd e.phase = .ok (if m then .init16 else .init8) ∧
          acceptEdge p q e = initialise m q.key0 q.key1 (clearTraceValid e)) ∨
       (e.phase = .absorb ∧ decodeAt q.cmd e.phase = .ok .absorb ∧
          acceptEdge p q e = acceptBlock p q.din (clearTraceValid e)) ∨
       (∃ t, e.phase = .absorb ∧ decodeAt q.cmd e.phase = .ok (.final t) ∧
          acceptEdge p q e = acceptTail p t q.din (clearTraceValid e)))) := by
  unfold acceptEdge
  simp only [clearTraceValid_phase]
  cases hv : q.cmdValid
  · exact .inl ⟨rfl, rfl⟩
  right
  refine ⟨rfl, ?_⟩
  simp only [if_true]
  rcases hd : decodeAt q.cmd e.phase with k | i
  · exact .inl ⟨k, rfl, rfl⟩
  cases i with
  | init8 => exact .inr (.inl ⟨false, rfl, rfl⟩)
  | init16 => exact .inr (.inl ⟨true, rfl, rfl⟩)
  | absorb => exact .inr (.inr (.inl ⟨decodeAt_needsOpen hd rfl, rfl, rfl⟩))
  | final t => exact .inr (.inr (.inr ⟨t, decodeAt_needsOpen hd rfl, rfl, rfl⟩))

/-- Offering a command answers a next state in every state (R86). -/
@[simp] theorem offer_eq (s : State) (f : Engine → Engine) :
    offer s f =
      .next { s with eng := if s.eng.ready then f (clearTraceValid s.eng) else roundEdge Config.hardware s.eng } := rfl

/-- `exec` on a ready engine, with the ports driven by a command whose word decodes to `i`, is the command level of this
hardware. -/
theorem exec_ready (s : State) (c : Command) (i : Instr) (hr : s.eng.ready = true) (hp : s.pins = drive c)
    (hd : decode c.cmd = .ok i) : exec i s = .next { s with eng := commandLevel Config.hardware c s.eng } := by
  cases i with
  | init8 => simp [exec, execInit8, hr, commandLevel, decodeAt, hd, needsOpen, hp]
  | init16 => simp [exec, execInit16, hr, commandLevel, decodeAt, hd, needsOpen, hp]
  | absorb =>
    by_cases h : s.eng.phase = .absorb <;>
      simp [exec, execAbsorb, hr, commandLevel, decodeAt, hd, needsOpen, hp, inSequence, h]
  | final t =>
    by_cases h : s.eng.phase = .absorb <;>
      simp [exec, execFinal, hr, commandLevel, decodeAt, hd, needsOpen, hp, inSequence, h]

/-- `exec` on a busy engine is a round edge, whatever the command (R34, R107). -/
theorem exec_busy (i : Instr) (s : State) (hr : s.eng.ready = false) :
    exec i s = .next { s with eng := roundEdge Config.hardware s.eng } := by
  cases i <;> simp [exec, execInit8, execInit16, execAbsorb, execFinal, hr]

/-! ## The step -/

theorem step_issue_ready (s : State) (c : Command) (rest : List HostMove) (h : s.host = .issue c :: rest)
    (hr : s.eng.ready = true) :
    step s = .next { eng := commandLevel Config.hardware c s.eng, pins := drive c, host := rest } := by
  cases hd : decode c.cmd with
  | error k => simp [step, h, hd, rejectWord, hr, commandLevel, decodeAt]
  | ok i => simp [step, h, hd, exec_ready (present c s) c i (by simpa using hr) rfl hd, hr]

theorem step_issue_busy (s : State) (c : Command) (rest : List HostMove) (h : s.host = .issue c :: rest)
    (hr : s.eng.ready = false) :
    step s = .next { eng := roundEdge Config.hardware s.eng, pins := drive c, host := s.host } := by
  cases hd : decode c.cmd with
  | error k => simp [step, h, hd, rejectWord, hr]
  | ok i => simp [step, h, hd, exec_busy i (present c s) (by simpa using hr), hr]

/-- Everything a step that answers a next state can do. -/
theorem step_cases {s t : State} (h : step s = .next t) :
    (∃ c rest, s.host = .issue c :: rest ∧ s.eng.ready = true ∧
      t = { eng := commandLevel Config.hardware c s.eng, pins := drive c, host := rest }) ∨
    (∃ c rest, s.host = .issue c :: rest ∧ s.eng.ready = false ∧
      t = { eng := roundEdge Config.hardware s.eng, pins := drive c, host := s.host }) ∨
    (∃ q rest, s.host = .edge q :: rest ∧
      t = { eng := clockEdge Config.hardware q s.eng, pins := q, host := rest }) ∨
    (s.host = [] ∧
      t = { eng := clockEdge Config.hardware (release s.pins) s.eng, pins := release s.pins, host := [] }) ∨
    (∃ rest, s.host = .readDigest :: rest ∧ s.eng.phase = .done ∧ t = { s with host := rest }) := by
  rcases hh : s.host with _ | ⟨m, rest⟩
  · simp only [step, hh, Host.Outcome.next.injEq] at h
    exact .inr (.inr (.inr (.inl ⟨rfl, by rw [← h, clockState, hh]⟩)))
  cases m with
  | issue c =>
    cases hr : s.eng.ready
    · rw [step_issue_busy s c rest hh hr, Host.Outcome.next.injEq] at h
      exact .inr (.inl ⟨c, rest, rfl, rfl, by rw [← h, hh]⟩)
    · rw [step_issue_ready s c rest hh hr, Host.Outcome.next.injEq] at h
      exact .inl ⟨c, rest, rfl, rfl, h.symm⟩
  | edge q =>
    simp only [step, hh, Host.Outcome.next.injEq] at h
    exact .inr (.inr (.inl ⟨q, rest, rfl, by rw [← h, clockState]⟩))
  | readDigest =>
    by_cases hp : s.eng.phase = .done
    · simp [step, hh, takeDigest, readDigest, digestValid, hp] at h
      exact .inr (.inr (.inr (.inr ⟨rest, rfl, hp, h.symm⟩)))
    · simp [step, hh, takeDigest, readDigest, digestValid, hp] at h

end Sys2Proof.Machine
end

