-- ==== Sys2Proof/Laws/PerInstr.lean ====
section
/-! SUPPORT. Per-instruction laws: the word of each command lies in its row of the opcode map (spec/30_encoding.md R62),
its RSVD field is zero (R54), and its fields are those of an executed word (R55). -/

namespace Sys2Proof.Laws.TableRow

/-- The encoding of `i` matches its row under its mask, with RSVD zero and well-formed fields. -/
def Statement (i : Instr) : Prop :=
  i.wf ∧ encode i &&& rowMask i = rowMatch i ∧ (encode i).extractLsb' 11 5 = 0

theorem init8 : Statement .init8 := by unfold Statement; decide

theorem init16 : Statement .init16 := by unfold Statement; decide

theorem absorb : Statement .absorb := by unfold Statement; decide

theorem final (t : BitVec 3) : Statement (.final t) := by unfold Statement; revert t; decide

end Sys2Proof.Laws.TableRow
end

