-- ==== Sys2Proof/Tests/Slice0.lean ====
section
/-! SUPPORT. Tests. Expected values are those of spec/95_test_vectors.md or written out from the rule named; then, for
each obligation with hypotheses, a witness that its hypotheses can be met. -/

namespace Sys2Proof.Tests

open Sys2Proof Sys2Proof.Machine

/-! ## Helpers -/

/-- The key 00..0f of 95_test_vectors.md. -/
def key0 : Word := 0x0706050403020100
def key1 : Word := 0x0f0e0d0c0b0a0908

/-- The state an outcome answers, if it answers one. -/
def nextOf : Host.Outcome State Fault Refusal → Option State
  | .next s => some s
  | _ => none

/-- The reset state with the key on the key ports and `d` on `din`. -/
def onPorts (d : Word) : State := { State.reset with pins := { Pins.quiet with din := d, key0 := key0, key1 := key1 } }

/-- The state registers right after INIT.8 and INIT.16 with key 00..0f (95_test_vectors.md section 2.3). -/
def v8 : VRegs := { v0 := 0x7469686173716475, v1 := 0x6b617f6d656e6665, v2 := 0x6b7f62616d677361, v3 := 0x7b6b696e727e6c7b }
def v16 : VRegs := { v8 with v1 := 0x6b617f6d656e668b }

/-- A computation just opened, in 8-byte and in 16-byte mode, with `d` on `din`. -/
def open8 (d : Word) : State := { onPorts d with eng := { Engine.reset with v := v8, phase := .absorb } }
def open16 (d : Word) : State := { onPorts d with eng := { Engine.reset with v := v16, mode16 := true, phase := .absorb } }

/-- An engine that has just rejected a command with SEQUENCE. -/
def errored : State := { State.reset with eng := { Engine.reset with err := .sequence } }

/-- An engine in PHASE DONE. -/
def done8 : State := { State.reset with eng := { Engine.reset with phase := .done, out0 := 5 } }

/-- An engine in the rounds of a FINAL, with `n` rounds of its group left. -/
def busy (st : Stage) (n : BitVec 4) : Engine :=
  { Engine.reset with v := v8, phase := .absorb, stage := st, rc := n, fin := true }

/-! ## Well-formedness: an ill-formed term for each check (R5, R54, R55) -/

theorem test_smoke_rounds_zero : ¬ roundsLegal 0 := by decide
theorem test_smoke_rounds_sixteen : ¬ roundsLegal 16 := by decide
theorem test_smoke_params : ¬ Params.legal { cRounds := 2, dRounds := 0, traceEn := false } := by decide
theorem test_smoke_hardware_legal : Config.hardware.legal := by decide
theorem test_smoke_rsvd : ¬ CmdFields.wf { op := 2, t := 0, outlen := 0, rsvd := 1 } := by decide
theorem test_smoke_op : ¬ CmdFields.wf { op := 4, t := 0, outlen := 0, rsvd := 0 } := by decide
theorem test_smoke_init_t : ¬ CmdFields.wf { op := 1, t := 1, outlen := 8, rsvd := 0 } := by decide
theorem test_smoke_init_outlen : ¬ CmdFields.wf { op := 1, t := 0, outlen := 12, rsvd := 0 } := by decide
theorem test_smoke_absorb_t : ¬ CmdFields.wf { op := 2, t := 1, outlen := 0, rsvd := 0 } := by decide
theorem test_smoke_absorb_outlen : ¬ CmdFields.wf { op := 2, t := 0, outlen := 8, rsvd := 0 } := by decide
theorem test_smoke_final_outlen : ¬ CmdFields.wf { op := 3, t := 7, outlen := 8, rsvd := 0 } := by decide

/-! ## Decoding: words written out bit by bit from R50 (RSVD, OUTLEN, T, OP) and the rows of section 2.13 -/

theorem test_decode_init8 : decode 0b00000_01000_000_001 = .ok .init8 := by decide
theorem test_decode_init16 : decode 0b00000_10000_000_001 = .ok .init16 := by decide
theorem test_decode_absorb : decode 0b00000_00000_000_010 = .ok .absorb := by decide
theorem test_decode_final5 : decode 0b00000_00000_101_011 = .ok (.final 5) := by decide
theorem test_decode_final_row : decode 0x003b = .ok (.final 7) ∧ decode 0x0003 = .ok (.final 0) := by decide
theorem test_decode_illegal : decode 0x0000 = .error .illegalOpcode ∧ decode 0xffff = .error .illegalOpcode ∧
    decode 0x0004 = .error .illegalOpcode ∧ decode 0x0007 = .error .illegalOpcode := by decide
theorem test_decode_reserved : decode 0x0801 = .error .reservedField ∧ decode 0x0209 = .error .reservedField ∧
    decode 0x000a = .error .reservedField ∧ decode 0x0242 = .error .reservedField ∧
    decode 0x8003 = .error .reservedField ∧ decode 0x0309 = .error .reservedField := by decide
theorem test_decode_outlen : decode 0x0301 = .error .invalidOutlen ∧ decode 0x0001 = .error .invalidOutlen ∧
    decode 0x0441 = .error .invalidOutlen ∧ decode 0x01c1 = .error .invalidOutlen := by decide
theorem test_decode_sequence : decodeAt 0x0002 .idle = .error .sequence ∧ decodeAt 0x003b .done = .error .sequence ∧
    decodeAt 0x0802 .idle = .error .reservedField ∧ decodeAt 0x0401 .done = .ok .init16 := by decide
theorem test_encode_rows : encode .init8 = 0x0201 ∧ encode .init16 = 0x0401 ∧ encode .absorb = 0x0002 ∧
    encode (.final 6) = 0x0033 := by decide
theorem test_table_words : decodeTableWord 16 0x0201 = some .init8 ∧ decodeTableWord 16 0x0401 = some .init16 ∧
    decodeTableWord 16 0x0002 = some .absorb ∧ decodeTableWord 16 0x0013 = some (.final 2) ∧
    decodeTableWord 16 0x0000 = none := by decide
theorem test_placed_word_runs : (nextOf (step (State.reset.withFetchWord 16 0x0201))).map (fun t => statusWord t.eng) =
    some 0x0003 := by decide

/-! ## The datapath (sections 2.1, 2.2, 2.5; the ASCII strings of R63) -/

theorem test_rotl : rotl 0x8000000000000001 13 = 0x3000 ∧ rotl 0x0123456789abcdef 32 = 0x89abcdef01234567 := by decide
theorem test_sipRound_ones :
    sipRound { v0 := 0xffffffffffffffff, v1 := 0xffffffffffffffff, v2 := 0xffffffffffffffff, v3 := 0xffffffffffffffff } =
      { v0 := 0xffffffff00000000, v1 := 0xfffffffffffdffff, v2 := 0xffffffffffffffff, v3 := 0xffffffff00200000 } := by
  decide
theorem test_sipRound_one : sipRound { v0 := 1, v1 := 0, v2 := 0, v3 := 0 } =
    { v0 := 0x0000000100000000, v1 := 0x0000000000020001, v2 := 0x0000000100000000, v3 := 0x0000000100000000 } := by
  decide
theorem test_sipRound_wraps : sipRound { v0 := 0, v1 := 0, v2 := 0xffffffffffffffff, v3 := 1 } =
    { v0 := 0x10000, v1 := 0, v2 := 0, v3 := 0x0000002000010000 } := by decide
/-- First character in the most significant byte: "somepseu" and "tedbytes" (R63). -/
theorem test_constants_are_ascii :
    (List.range 8).map (fun k => (byteOf constC0 (7 - k)).toNat) = "somepseu".toList.map Char.toNat ∧
    (List.range 8).map (fun k => (byteOf constC1 (7 - k)).toNat) = "dorandom".toList.map Char.toNat ∧
    (List.range 8).map (fun k => (byteOf constC2 (7 - k)).toNat) = "lygenera".toList.map Char.toNat ∧
    (List.range 8).map (fun k => (byteOf constC3 (7 - k)).toNat) = "tedbytes".toList.map Char.toNat := by decide
theorem test_tail_word_wraps : tailWord 250 7 0x0706050403020100 = 0x0106050403020100 := by decide
theorem test_tail_word_masks : tailWord 0 3 0x0706050403020100 = 0x0300000000020100 ∧
    tailWord 8 0 0xffffffffffffffff = 0x0800000000000000 := by decide
theorem test_key_bytes : le64 [0, 1, 2, 3, 4, 5, 6, 7] = key0 := by decide

/-! ## The commands (sections 2.3, 2.4, 2.6, 2.14) -/

theorem test_init8 : (nextOf (exec .init8 (onPorts 0))).map (fun t => (t.eng.v, statusWord t.eng)) = some (v8, 0x0003) := by
  decide
theorem test_init16 : (nextOf (exec .init16 (onPorts 0))).map (fun t => (t.eng.v, statusWord t.eng)) =
    some (v16, 0x000b) := by decide
theorem test_absorb : (nextOf (exec .absorb (open8 0x0706050403020100))).map (fun t => (t.eng.v, statusWord t.eng)) =
    some ({ v0 := 0x4a017198de0a59e0, v1 := 0x0d52f6f62a4f59a4, v2 := 0x634cb3577b01fd3d, v3 := 0xa5224d6f55c7d9c8 },
      0x0803) := by decide
theorem test_absorb_out_of_sequence : (nextOf (exec .absorb State.reset)).map (fun t => statusWord t.eng) =
    some 0x0041 := by decide
theorem test_final8 : (nextOf (exec (.final 0) (open8 0xdeadbeef))).map
    (fun t => (t.eng.out0, t.eng.out1, statusWord t.eng)) = some (0x726fdb47dd0e0e31, 0, 0x0005) := by decide
theorem test_final16 : (nextOf (exec (.final 1) (open16 0))).map
    (fun t => (t.eng.out0, t.eng.out1, t.eng.mreg, statusWord t.eng)) =
      some (0x44af996bd8c187da, 0x45fc229b11597634, 0x0100000000000000, 0x010d) := by decide
theorem test_digest_bytes : digestBytes false ((0 : Word) ++ (0x726fdb47dd0e0e31 : Word)) =
    [0x31, 0x0e, 0x0e, 0xdd, 0x47, 0xdb, 0x6f, 0x72] := by decide
/-- Program P4, line 2: the first error is kept. -/
theorem test_reject_keeps_first : (nextOf (step { errored with host := [.issue (stmtCommand (.cmd 0x0301 0 0 0))] })).map
    (fun t => (statusWord t.eng, t.host)) = some (0x0041, []) := by decide

/-! ## The cycle level (section 2.15, edges 2 and 4) and other round counts (section 2.11) -/

theorem test_accept_final : (fun e => (e.stage, e.rc, statusWord e))
    (clockEdge Config.hardware (drive (stmtCommand (.final 0 0))) (open8 0).eng) = (.c, 2, 0x0002) := by decide
theorem test_last_c_round : (fun e => (e.stage, e.rc, e.v.v0, e.v.v2)) (clockEdge Config.hardware Pins.quiet
      { busy .c 1 with v := { v0 := 0x6864848c93698c85, v1 := 0x41d43f143c94a7dc, v2 := 0xf3f94792d7121732,
                              v3 := 0x5e52f75805987c12 } }) =
    (.d1, 4, 0x75126fd44af190b6, 0x37b04f9f802683e2) := by decide
theorem test_siphash_1_3 : siphash { cRounds := 1, dRounds := 3, traceEn := false } false key0 key1 [0] =
    [0x93, 0xca, 0x57, 0x7d, 0xf3, 0x9b, 0xf4, 0xc9] := by decide
/-- The first trace event of the first row of section 2.4, with TRACE_EN = 1. -/
theorem test_trace_event : (clockEdge { Config.hardware with traceEn := true } Pins.quiet
      { busy .c 2 with v := { v8 with v3 := v8.v3 ^^^ 0x0706050403020100 }, fin := false }).traceLog =
    [{ stage := .c, idx := 0,
       v := { v0 := 0x64668a929363847f, v1 := 0x4ed232083d9aa8dc, v2 := 0xf2f74892d8141a2e, v3 := 0x9290f9810552f4a8 } }] := by
  decide

/-! ## Witnesses: the hypotheses of each obligation can be met -/

theorem witness_ResetEdgeFromAnyState : { Pins.quiet with rst := true }.rst = true ∧
    (∀ q ∈ [{ Pins.quiet with rst := true }, { drive (stmtCommand (.absorb 1)) with rst := true }], q.rst = true) := by
  decide
theorem witness_EveryMoveIsAnswered : { open8 0 with host := [.edge { Pins.quiet with rst := true }] }.host =
    [.edge { Pins.quiet with rst := true }] ∧ { open8 0 with host := [.readDigest] }.eng.phase ≠ .done := by decide
theorem witness_IdleEngineHoldsItsState : (open8 0).host = [] ∧ (open8 0).eng.ready = true := by decide
theorem witness_RotationMovesEachBit : (0 < 1 ∧ 1 < 64 ∧ 0 < 64) ∧ (0 < 63 ∧ 63 < 64) := by decide
theorem witness_CommandsUseTheRoundParameters : decodeAt 0x0002 (open8 0).eng.phase = .ok .absorb ∧
    decodeAt 0x003b (open16 0).eng.phase = .ok (.final 7) := by decide
theorem witness_ElevenWordsAreExecuted : Phase.idle ≠ .absorb ∧ Phase.done ≠ .absorb := by decide
theorem witness_StepRunsTheDecodedCommand :
    { State.reset with host := [.issue (stmtCommand (.absorb 1))] }.host = [.issue (stmtCommand (.absorb 1))] ∧
    decode (stmtCommand (.absorb 1)).cmd = .ok .absorb ∧
    decode (stmtCommand (.cmd 0x0301 0 0 0)).cmd = .error .invalidOutlen := by decide
theorem witness_PlacedWordRunsNext : State.reset.eng.ready = true ∧ decode 0x0401 = .ok .init16 := by decide
theorem witness_InitLoadsKeyAndConstants : (onPorts 0).eng.ready = true ∧ (open16 0).eng.ready = true := by decide
theorem witness_InitModesDifferOnlyInV1 : (onPorts 0).eng.ready = true ∧ (onPorts 0).pins.key1 = 0x0f0e0d0c0b0a0908 := by decide
theorem witness_LeftoverStateIsHidden :
    outputs Config.hardware Engine.reset = outputs Config.hardware { Engine.reset with v := v8, mreg := 7, out0 := 9 } ∧
    Engine.reset.ready = true ∧ Engine.reset.phase ≠ .absorb := by decide
theorem witness_AbsorbCompressesTheBlock : (open8 1).eng.ready = true ∧ (open8 1).eng.phase = .absorb := by decide
theorem witness_AbsorbCountsEightBytes_rejected : done8.eng.ready = true ∧ done8.eng.phase ≠ .absorb := by decide
theorem witness_TailWordLayout : 6 < (7 : BitVec 3).toNat ∧ ((3 : BitVec 3).toNat ≤ 3 ∧ 3 ≤ 6) ∧
    ((0 : BitVec 3).toNat ≤ 0 ∧ 6 ≤ 6) := by decide
theorem witness_FinalIgnoresLanesAboveTheTail : agreeOnLanes 1 (onPorts 0xffffffffffffff00).pins.din 0 := by decide
theorem witness_FinalProducesEightBytes :
    (open8 1).eng.ready = true ∧ (open8 1).eng.phase = .absorb ∧ (open8 1).eng.mode16 = false := by decide
theorem witness_FinalProducesSixteenBytes :
    (open16 1).eng.ready = true ∧ (open16 1).eng.phase = .absorb ∧ (open16 1).eng.mode16 = true := by decide
theorem witness_OutOfOrderCommandsRaiseSequence : (State.reset.eng.ready = true ∧ State.reset.eng.phase = .idle) ∧
    (done8.eng.ready = true ∧ done8.eng.phase = .done) ∧ (0x0301 : CmdWord).extractLsb' 0 3 = 1 := by decide
theorem witness_RejectionChangesOnlyErrAndPhase :
    { open8 0 with host := [.issue (stmtCommand (.cmd 0x0000 0 0 0))] }.eng.ready = true ∧
    decodeAt 0x0000 (open8 0).eng.phase = .error .illegalOpcode ∧
    decodeAt 0x0002 State.reset.eng.phase = .error .sequence ∧
    (∀ l ∈ [stmtCommand (.absorb 1), stmtCommand (.final 2 0), stmtCommand (.cmd 0x0301 0 0 0)], ¬ isInitWord l.cmd) := by
  decide
theorem witness_ErrKeepsTheFirstCode : errored.eng.err ≠ .noError ∧ (nextOf (step errored)).isSome = true ∧
    resetsNext errored = false ∧ acceptedWord errored = none ∧
    (nextOf (step { errored with host := [.issue (stmtCommand (.init8 0 0))] })).map (fun t => t.eng.err) =
      some .noError ∧
    resetsNext { errored with host := [.edge { Pins.quiet with rst := true }] } = true := by decide
theorem witness_ErrIsClearedByInit : acceptsInit { errored with host := [.issue (stmtCommand (.init8 0 0))] } :=
  ⟨0x0201, by decide, by decide⟩
theorem witness_CommandFrame : (open8 1).eng.ready = true ∧ (nextOf (exec .absorb (open8 1))).isSome = true ∧
    (nextOf (exec (.final 1) (open8 1))).isSome = true ∧ (open8 1).eng.mode16 = false ∧
    needsOpen .absorb = true ∧ State.reset.eng.phase ≠ .absorb := by decide
theorem witness_PhaseMovesOnlyAsListed : (open8 0).Inv ∧
    ((nextOf (step { open8 0 with host := [.issue (stmtCommand (.final 0 0))] })).map fun t => t.eng.phase) = some .done ∧
    ((nextOf (step { open8 0 with host := [.issue (stmtCommand (.cmd 0 0 0 0))] })).map fun t => t.eng.phase) =
      some .idle ∧
    ((nextOf (step { State.reset with host := [.issue (stmtCommand (.init8 0 0))] })).map fun t => t.eng.phase) =
      some .absorb := by decide
theorem witness_PhaseMovesByIssuedFinal : issuesFinal { open8 0 with host := [.issue (stmtCommand (.final 0 0))] } :=
  ⟨_, [], 0, rfl, by decide, by decide⟩
theorem witness_PhaseMovesByRejection : acceptsRejected { open8 0 with host := [.issue (stmtCommand (.cmd 0 0 0 0))] } :=
  ⟨0x0000, .illegalOpcode, by decide, by decide⟩
theorem witness_PhaseMovesByTheLastRound :
    (nextOf (step { State.reset with eng := busy .d1 1 })).map (fun t => (t.eng.phase, t.eng.ready)) =
      some (.done, true) := by decide
theorem witness_RegistersHaveOnlyTheirWriters :
    (nextOf (step { open8 0 with host := [.issue (stmtCommand (.init16 0 0))] })).isSome = true ∧
    resetsNext { open8 0 with host := [.issue (stmtCommand (.init16 0 0))] } = false := by decide
/-- Each clause on OUT0, OUT1 and MREG speaks of a step that does change the register. -/
theorem witness_RegistersHaveWriters :
    (nextOf (step { State.reset with eng := busy .d1 1 })).map (fun t => t.eng.out0 == 0) = some false ∧
    (nextOf (step { State.reset with eng := { busy .d2 1 with mode16 := true } })).map (fun t => t.eng.out1 == 0) =
      some false ∧
    (nextOf (step { open8 0 with host := [.edge (drive (stmtCommand (.absorb 9)))] })).map (fun t => t.eng.mreg) =
      some 9 := by decide
theorem witness_BusyEngineAcceptsNothing : (busy .c 2).ready = false ∧ Pins.quiet.rst = false ∧
    (drive (stmtCommand (.absorb 3))).rst = false := by decide
theorem witness_DigestPortIsLittleEndian : ∃ d, readDigest done8.eng = .next d ∧ done8.eng.Inv Config.hardware ∧
    done8.eng.mode16 = false := ⟨_, rfl, by decide, rfl⟩
theorem witness_DigestValidUntilNextAccept : done8.Inv ∧ done8.eng.phase = .done ∧ (nextOf (step done8)).isSome = true ∧
    acceptedWord { done8 with host := [.issue (stmtCommand (.absorb 0))] } = some 0x0002 ∧
    State.reset.eng.phase ≠ .done := by decide
theorem witness_StepKeepsTheInvariant : (open16 0).Inv ∧
    (nextOf (step { open16 0 with host := [.edge (drive (stmtCommand (.final 3 0)))] })).isSome = true := by decide
theorem witness_EdgesAndCommandsKeepTheInvariant : Config.hardware.legal ∧ (open8 0).eng.Inv Config.hardware ∧
    (open8 0).eng.ready = true := by decide
/-- A busy engine that meets the invariant. -/
theorem busy_meets_the_invariant (n : BitVec 4) (h : 1 ≤ n.toNat) (h' : n.toNat ≤ 4) :
    Engine.Inv Config.hardware (busy .d1 n) :=
  ⟨⟨by simp [busy], fun _ => ⟨h, h', rfl⟩, fun _ => rfl, by simp [busy]⟩, by simp [busy, Engine.reset, DigestOk],
    by simp [busy, Engine.reset, ErrorOk], by simp [busy, Engine.reset, TraceOk, TraceEvent.zero]⟩
theorem witness_BusyEngineMeetsTheInvariant : Engine.Inv Config.hardware (busy .d1 4) ∧
    Engine.Inv Config.hardware (busy .d1 1) :=
  ⟨busy_meets_the_invariant 4 (by decide) (by decide), busy_meets_the_invariant 1 (by decide) (by decide)⟩
theorem witness_LastRoundFoldsTheClosingXor : Pins.quiet.rst = false ∧ (busy .c 2).stage ≠ .idle ∧
    (1 : BitVec 4) < (busy .c 2).rc ∧ (busy .c 1).rc = 1 ∧ (busy .c 1).fin = true ∧
    { busy .c 1 with fin := false }.fin = false ∧ (busy .d1 1).stage = .d1 ∧ (busy .d1 1).mode16 = false ∧
    { busy .d1 1 with mode16 := true }.mode16 = true ∧ (busy .d2 1).stage = .d2 := by decide
theorem witness_AcceptEdgeRegisters : (drive (stmtCommand (.absorb 1))).rst = false ∧ (open8 0).eng.ready = true ∧
    Pins.quiet.cmdValid = false ∧ (drive (stmtCommand (.absorb 1))).cmdValid = true ∧
    decodeAt 0x0000 (open8 0).eng.phase = .error .illegalOpcode ∧ decodeAt 0x0201 (open8 0).eng.phase = .ok .init8 ∧
    decodeAt 0x0401 (open8 0).eng.phase = .ok .init16 ∧ decodeAt 0x0002 (open8 0).eng.phase = .ok .absorb ∧
    decodeAt 0x003b (open8 0).eng.phase = .ok (.final 7) ∧ Config.hardware.legal := by decide
theorem witness_ReadyFallsAndRisesWithTheRounds : (busy .d1 1).Inv Config.hardware ∧ (busy .d1 1).ready = false ∧
    (busy .d1 1).fin = true ∧ Pins.quiet.rst = false ∧ (busy .d1 1).stage = .d1 ∧ (busy .d1 1).rc = 1 ∧
    (busy .d1 1).mode16 = false := ⟨witness_BusyEngineMeetsTheInvariant.2, by decide, by decide, by decide, by decide, by decide, by decide⟩
theorem witness_ReadyFallsAtTheAcceptEdge : Config.hardware.legal ∧ (open8 0).eng.Inv Config.hardware ∧
    (open8 0).eng.ready = true ∧ (drive (stmtCommand (.absorb 1))).cmdValid = true ∧
    decodeAt (stmtCommand (.absorb 1)).cmd (open8 0).eng.phase = .ok .absorb ∧
    decodeAt (stmtCommand (.cmd 0 0 0 0)).cmd (open8 0).eng.phase = .error .illegalOpcode := by decide
theorem witness_CycleLevelRefinesCommandLevel : Config.hardware.legal ∧ (open16 0).eng.ready = true ∧
    (open16 0).eng.rc = 0 ∧ (∀ q ∈ List.replicate 10 Pins.quiet, q.rst = false) ∧
    (List.replicate 10 Pins.quiet).length = latency Config.hardware (stmtCommand (.final 3 0)) (open16 0).eng := by decide
theorem witness_TracingDoesNotInterfere :
    untraced Engine.reset = untraced { Engine.reset with traceValid := true, traceLog := [TraceEvent.zero] } := by decide
theorem witness_TraceEventsOfEachCommand : { Config.hardware with traceEn := true }.traceEn = true ∧
    decodeAt 0x0002 (open8 0).eng.phase = .ok .absorb ∧ decodeAt 0x0003 (open8 0).eng.phase = .ok (.final 0) := by decide
theorem witness_FirstTraceEventRevealsTheKey : { Config.hardware with traceEn := true }.traceEn = true ∧
    1 ≤ { Config.hardware with traceEn := true }.cRounds := by decide
theorem witness_IssuedCommandsRunInOrder : State.reset.eng.ready = true ∧
    { State.reset with host := issueAll (hashStmts false 0 0 [1, 2]) }.host = issueAll (hashStmts false 0 0 [1, 2]) ++ [] := by
  decide
theorem witness_HashComputesTheSourceFunction : done8.eng.ready = true ∧ errored.eng.ready = true := by decide

end Sys2Proof.Tests
end

section
/-! PROOFS. The family of spec/00_scope.md: the commands use the round parameters (O7), and every edge and every command
keep the invariant for every legal setting of the parameters (O38). -/

namespace Sys2Proof.Machine

/-! ## What a decoded ABSORB and a decoded FINAL do at the command level (R67, R71) -/

theorem commandLevel_of_absorb {p : Params} {c : Command} {e : Engine} (h : decodeAt c.cmd e.phase = .ok .absorb) :
    commandLevel p c e = absorb p c.din (clearTraceValid e) := by
  simp [commandLevel, h]

theorem commandLevel_of_final {p : Params} {c : Command} {e : Engine} {t : BitVec 3}
    (h : decodeAt c.cmd e.phase = .ok (.final t)) :
    commandLevel p c e = finalise p t c.din (clearTraceValid e) := by
  simp [commandLevel, h]

/-- Settles O7: `absorb_v`, `finalise_v`, `finalise_out0` and `finalise_out1` give the registers as `refMix`, `refFinal`
and `foldV`, whose definitions are the XORs and rounds that the statement writes out. -/
theorem commandsUseTheRoundParameters : Obligations.CommandsUseTheRoundParameters := by
  refine ⟨fun _ => rfl, fun _ _ => rfl, fun p c e => ⟨fun h => ?_, fun t h => ?_⟩⟩
  · rw [commandLevel_of_absorb h, absorb_v]
    rfl
  · rw [commandLevel_of_final h]
    exact ⟨finalise_v .., finalise_out0 .., finalise_out1 ..⟩

/-! ## The trace part of the invariant (R24, R98) -/

theorem clearTraceValid_keeps_traceOk {p : Params} {e : Engine} (h : TraceOk p e) : TraceOk p (clearTraceValid e) := by
  obtain ⟨hlast, hoff⟩ := h
  exact ⟨hlast, fun hp => ⟨(hoff hp).1, rfl⟩⟩

/-- The emitted event is the last of the log; with TRACE_EN = 0 none is emitted. -/
theorem emitTrace_keeps_traceOk {p : Params} {e : Engine} (ev : TraceEvent) (h : TraceOk p e) :
    TraceOk p (emitTrace p ev e) := by
  cases hp : p.traceEn
  · simpa [TraceOk, hp] using h
  · simp [TraceOk, hp]

theorem runRounds_keeps_traceOk {p : Params} {e : Engine} (st : Stage) (n : Nat) (h : TraceOk p e) :
    TraceOk p (runRounds p st n e) := by
  induction n with
  | zero => exact h
  | succ n ih => exact emitTrace_keeps_traceOk _ ih

theorem compress_keeps_traceOk {p : Params} {e : Engine} (m : Word) (h : TraceOk p e) : TraceOk p (compress p m e) :=
  runRounds_keeps_traceOk (e := { e with mreg := m, v := xorV3 e.v m }) .c p.cRounds h

theorem firstPass_keeps_traceOk {p : Params} {e : Engine} (h : TraceOk p e) : TraceOk p (firstPass p e) :=
  runRounds_keeps_traceOk (e := { e with v := xorV2 e.v (finalConst e.mode16) }) .d1 p.dRounds h

theorem secondPass_keeps_traceOk {p : Params} {e : Engine} (h : TraceOk p e) : TraceOk p (secondPass p e) :=
  runRounds_keeps_traceOk (e := { e with v := xorV1 e.v secondConst }) .d2 p.dRounds h

theorem finalise_keeps_traceOk {p : Params} {e : Engine} (t : BitVec 3) (w : Word) (h : TraceOk p e) :
    TraceOk p (finalise p t w e) := by
  have hfirst := firstPass_keeps_traceOk
    (compress_keeps_traceOk (e := { e with blen := blenTail e.blen t, fin := true }) (tailWord e.blen t w) h)
  unfold finalise
  dsimp only
  split
  · exact secondPass_keeps_traceOk hfirst
  · exact hfirst

/-! ## The sequencer part of the invariant (R23, R106 to R109) -/

/-- A legal round count fits RC, so no group starts with RC = 0. -/
theorem groupRounds_fits {p : Params} (hl : p.legal) (st : Stage) :
    1 ≤ groupRounds p st ∧ (BitVec.ofNat 4 (groupRounds p st)).toNat = groupRounds p st := by
  obtain ⟨⟨hc, hc'⟩, hd, hd'⟩ := hl
  rw [BitVec.toNat_ofNat]
  unfold groupRounds
  split <;> omega

theorem sequencerOk_of_idle {p : Params} {e : Engine} (hs : e.stage = .idle) (hrc : e.rc = 0) : SequencerOk p e := by
  simp [SequencerOk, hs, hrc]

/-- A group in progress, with its whole count still to run. -/
theorem sequencerOk_of_armed {p : Params} {e : Engine} (hl : p.legal) (hs : e.stage ≠ .idle)
    (hrc : e.rc = BitVec.ofNat 4 (groupRounds p e.stage)) (hph : e.phase = .absorb)
    (hd1 : e.stage = .d1 → e.fin = true) (hd2 : e.stage = .d2 → e.fin = true ∧ e.mode16 = true) : SequencerOk p e := by
  obtain ⟨hpos, hfits⟩ := groupRounds_fits hl e.stage
  have hcount : e.rc.toNat = groupRounds p e.stage := by rw [hrc, hfits]
  exact ⟨fun h => absurd h hs, fun _ => ⟨hcount ▸ hpos, hcount.le, hph⟩, hd1, hd2⟩

/-- While a computation is open no error is held (R93, R116). -/
theorem noError_of_absorb {e : Engine} (h : ErrorOk e) (hph : e.phase = .absorb) : e.err = .noError := by
  by_contra hne
  exact absurd (hph ▸ h hne : Phase.absorb = .idle) (by decide)

/-! ## The accept edge and the command level keep the invariant -/

section Accept
variable {p : Params} {e : Engine}

theorem clearTraceValid_keeps_inv (h : e.Inv p) : (clearTraceValid e).Inv p := by
  obtain ⟨hseq, hdig, herr, htr⟩ := h
  exact ⟨hseq, hdig, herr, clearTraceValid_keeps_traceOk htr⟩

theorem reject_keeps_inv (k : ErrCode) (hs : e.stage = .idle) (h : e.Inv p) : (reject k e).Inv p := by
  obtain ⟨hseq, hdig, -, htr⟩ := h
  exact ⟨sequencerOk_of_idle hs (hseq.1 hs), ⟨hdig.1, by simp⟩, fun _ => rfl, htr⟩

theorem initialise_keeps_inv (m : Bool) (k0 k1 : Word) (hs : e.stage = .idle) (h : e.Inv p) :
    (initialise m k0 k1 e).Inv p := by
  obtain ⟨hseq, -, -, htr⟩ := h
  exact ⟨sequencerOk_of_idle hs (hseq.1 hs), by simp [DigestOk], by simp [ErrorOk], htr⟩

/-- Arming the C group, which the accept edges of ABSORB and FINAL share (R106). -/
theorem armC_keeps_inv (hl : p.legal) (hs : e.stage = .idle) (hph : e.phase = .absorb) (h : e.Inv p) (m : Word)
    (v : VRegs) (n : BitVec 8) (f : Bool) :
    Engine.Inv p { e with mreg := m, v := v, blen := n, stage := .c, rc := BitVec.ofNat 4 p.cRounds, fin := f } := by
  obtain ⟨-, ⟨hout1, hopen⟩, herr, htr⟩ := h
  obtain ⟨hout1', hout0⟩ := hopen hph
  have hout0' : e.out0 = 0 := hout0 (by simp [hs])
  exact ⟨sequencerOk_of_armed hl (by simp) rfl hph (by simp) (by simp), ⟨hout1, fun _ => ⟨hout1', fun _ => hout0'⟩⟩,
    herr, htr⟩

theorem acceptEdge_keeps_inv (hl : p.legal) (hs : e.stage = .idle) (h : e.Inv p) (q : Pins) :
    (acceptEdge p q e).Inv p := by
  have hclear := clearTraceValid_keeps_inv h
  obtain ⟨-, heq⟩ | ⟨-, ⟨k, -, heq⟩ | ⟨m, -, heq⟩ | ⟨hph, -, heq⟩ | ⟨t, hph, -, heq⟩⟩ := acceptEdge_cases p q e
  all_goals rw [heq]
  · exact hclear
  · exact reject_keeps_inv k hs hclear
  · exact initialise_keeps_inv m _ _ hs hclear
  · exact armC_keeps_inv (e := clearTraceValid e) hl hs hph hclear ..
  · exact armC_keeps_inv (e := clearTraceValid e) hl hs hph hclear ..

/-- ABSORB changes v0..v3, MREG, BLEN, FIN and the trace, of which only the trace matters to an idle sequencer. -/
theorem absorb_keeps_inv (m : Word) (hs : e.stage = .idle) (h : e.Inv p) : (absorb p m e).Inv p := by
  obtain ⟨hseq, hdig, herr, htr⟩ := h
  exact ⟨sequencerOk_of_idle (by simp [hs]) (by simp [hseq.1 hs]), by simpa [DigestOk] using hdig,
    by simpa [ErrorOk] using herr,
    compress_keeps_traceOk (e := { e with blen := blenBlock e.blen, fin := false }) m htr⟩

/-- FINAL closes the computation: OUT0 may hold a value then, and OUT1 only in 16-byte mode. -/
theorem finalise_keeps_inv (t : BitVec 3) (w : Word) (hs : e.stage = .idle) (hph : e.phase = .absorb) (h : e.Inv p) :
    (finalise p t w e).Inv p := by
  obtain ⟨hseq, ⟨hout1, -⟩, herr, htr⟩ := h
  have hdigest : DigestOk (finalise p t w e) := by
    refine ⟨fun hm => ?_, by simp⟩
    rw [finalise_mode16] at hm
    simp [hm, hout1 hm]
  exact ⟨sequencerOk_of_idle (by simp [hs]) (by simp [hseq.1 hs]), hdigest,
    by simp [ErrorOk, noError_of_absorb herr hph], finalise_keeps_traceOk t w htr⟩

theorem commandLevel_keeps_inv (hs : e.stage = .idle) (h : e.Inv p) (c : Command) : (commandLevel p c e).Inv p := by
  have hclear := clearTraceValid_keeps_inv h
  obtain ⟨k, -, heq⟩ | ⟨m, -, heq⟩ | ⟨-, -, heq⟩ | ⟨t, hph, -, heq⟩ := commandLevel_cases p c e
  all_goals rw [heq]
  · exact reject_keeps_inv k hs hclear
  · exact initialise_keeps_inv m _ _ hs hclear
  · exact absorb_keeps_inv _ hs hclear
  · exact finalise_keeps_inv t _ hs hph hclear

end Accept

/-! ## The round edge keeps the invariant -/

section Round
variable {p : Params} {e : Engine}

theorem emitTrace_keeps_inv (ev : TraceEvent) (h : e.Inv p) : (emitTrace p ev e).Inv p := by
  obtain ⟨hseq, hdig, herr, htr⟩ := h
  exact ⟨by simpa [SequencerOk] using hseq, by simpa [DigestOk] using hdig, by simpa [ErrorOk] using herr,
    emitTrace_keeps_traceOk ev htr⟩

/-- A round edge inside a group counts RC down and leaves it at least 1. -/
theorem countDown_keeps_inv (hb : e.stage ≠ .idle) (hrc : 1 < e.rc) (h : e.Inv p) (v : VRegs) :
    Engine.Inv p { e with v := v, rc := e.rc - 1 } := by
  obtain ⟨⟨-, hbusy, hd1, hd2⟩, hdig, herr, htr⟩ := h
  obtain ⟨-, hle, hph⟩ := hbusy hb
  have hpos : 1 ≤ (e.rc - 1).toNat := by bv_omega
  have hdown : (e.rc - 1).toNat ≤ e.rc.toNat := by bv_omega
  exact ⟨⟨fun hi => absurd hi hb, fun _ => ⟨hpos, hdown.trans hle, hph⟩, hd1, hd2⟩, hdig, herr, htr⟩

/-- Each end of a group either stops the sequencer or arms the next group of the same FINAL (R108). -/
theorem endOfGroup_keeps_inv (hl : p.legal) (hb : e.stage ≠ .idle) (h : e.Inv p) (s : VRegs) :
    (endOfGroup p s e).Inv p := by
  obtain ⟨⟨-, hbusy, hd1, hd2⟩, ⟨hout1, hopen⟩, herr, htr⟩ := h
  obtain ⟨-, -, hph⟩ := hbusy hb
  obtain ⟨hout1', hout0⟩ := hopen hph
  have hno := noError_of_absorb herr hph
  unfold endOfGroup
  split
  next hs => exact absurd hs hb
  next hs =>
    have hout0' : e.out0 = 0 := hout0 (by simp [hs])
    split
    next hfin =>
      exact ⟨sequencerOk_of_armed hl (by simp) rfl hph (fun _ => hfin) (by simp),
        ⟨hout1, fun _ => ⟨hout1', fun _ => hout0'⟩⟩, herr, htr⟩
    next =>
      exact ⟨sequencerOk_of_idle rfl rfl, ⟨hout1, fun _ => ⟨hout1', fun _ => hout0'⟩⟩, herr, htr⟩
  next hs =>
    split
    next hm =>
      exact ⟨sequencerOk_of_armed hl (by simp) rfl hph (by simp) (fun _ => ⟨hd1 hs, hm⟩),
        ⟨hout1, fun _ => ⟨hout1', by simp⟩⟩, herr, htr⟩
    next => exact ⟨sequencerOk_of_idle rfl rfl, ⟨hout1, by simp⟩, by simp [ErrorOk, hno], htr⟩
  next hs =>
    exact ⟨sequencerOk_of_idle rfl rfl, ⟨by simp [(hd2 hs).2], by simp⟩, by simp [ErrorOk, hno], htr⟩

theorem roundEdge_keeps_inv (hl : p.legal) (hb : e.stage ≠ .idle) (h : e.Inv p) : (roundEdge p e).Inv p := by
  have htraced := emitTrace_keeps_inv (roundEvent p e) h
  have hb' : (emitTrace p (roundEvent p e) e).stage ≠ .idle := by simpa using hb
  by_cases hrc : 1 < e.rc
  · rw [roundEdge_more p e hrc, ← emitTrace_rc p (roundEvent p e) e]
    exact countDown_keeps_inv hb' (by simpa using hrc) htraced _
  · rw [roundEdge_last p e hrc]
    exact endOfGroup_keeps_inv hl hb' htraced _

end Round

/-! ## One rising edge -/

theorem reset_meets_inv (p : Params) : Engine.Inv p Engine.reset := by
  simp [Engine.Inv, SequencerOk, DigestOk, ErrorOk, TraceOk, Engine.reset]

/-- Reset, the accept edge and the round edge each keep the invariant (R103, R106, R107). -/
theorem clockEdge_keeps_inv {p : Params} {e : Engine} (hl : p.legal) (h : e.Inv p) (q : Pins) :
    (clockEdge p q e).Inv p := by
  unfold clockEdge
  split
  next => exact reset_meets_inv p
  next =>
    split
    next hr => exact acceptEdge_keeps_inv hl ((ready_iff e).mp hr) h q
    next hr => exact roundEdge_keeps_inv hl (fun hs => hr ((ready_iff e).mpr hs)) h

/-- Settles O38, by the cases of an edge (`clockEdge_keeps_inv`) and of a command (`commandLevel_keeps_inv`). -/
theorem edgesAndCommandsKeepTheInvariant : Obligations.EdgesAndCommandsKeepTheInvariant :=
  fun _ e hl h => ⟨clockEdge_keeps_inv hl h, fun hr => commandLevel_keeps_inv ((ready_iff e).mp hr) h⟩

end Sys2Proof.Machine
end

section
/-! PROOFS. The family of spec/10_state.md: the reset state (O1, O36), the status word (O33), every step keeps the
invariant (O37), and what a closed computation left in the registers is hidden (O18). -/

namespace Sys2Proof.Machine

/-! ## The reset state (R31, R104) -/

/-- Settles O1: each register of `Engine.reset` is read off its definition, and the ports are evaluated. -/
theorem resetRegistersAndPorts : Obligations.ResetRegistersAndPorts := by
  unfold Obligations.ResetRegistersAndPorts
  decide

/-- Settles O36, the case of this hardware's parameters. -/
theorem resetMeetsTheInvariant : Obligations.ResetMeetsTheInvariant := reset_meets_inv Config.hardware

/-! ## The step keeps the invariant -/

/-- Settles O37: each case of `step_cases` is a command on a ready engine, a round edge, a rising edge, or a read that
leaves the engine. -/
theorem stepKeepsTheInvariant : Obligations.StepKeepsTheInvariant := by
  intro s t hinv hstep
  have hl : Config.hardware.legal := by decide
  obtain ⟨c, rest, -, hr, rfl⟩ | ⟨c, rest, -, hr, rfl⟩ | ⟨q, rest, -, rfl⟩ | ⟨-, rfl⟩ | ⟨rest, -, -, rfl⟩ :=
    step_cases hstep
  · exact commandLevel_keeps_inv ((ready_iff _).mp hr) hinv c
  · exact roundEdge_keeps_inv hl ((busy_iff _).mp hr) hinv
  · exact clockEdge_keeps_inv hl hinv q
  · exact clockEdge_keeps_inv hl hinv (release s.pins)
  · exact hinv

/-! ## Fields of a concatenation -/

theorem getLsbD_append_low {n m i : Nat} (a : BitVec n) (b : BitVec m) (h : i < m) :
    (a ++ b).getLsbD i = b.getLsbD i := by
  rw [BitVec.getLsbD_append, if_pos h]

theorem getLsbD_append_high {n m i : Nat} (a : BitVec n) (b : BitVec m) (h : m ≤ i) :
    (a ++ b).getLsbD i = a.getLsbD (i - m) := by
  rw [BitVec.getLsbD_append, if_neg (by omega)]

theorem append_inj {n m : Nat} {a a' : BitVec n} {b b' : BitVec m} (h : a ++ b = a' ++ b') : a = a' ∧ b = b' := by
  constructor
  · simpa only [BitVec.extractLsb'_append_eq_left] using congrArg (·.extractLsb' m n) h
  · simpa only [BitVec.extractLsb'_append_eq_right] using congrArg (·.extractLsb' 0 m) h

/-! ## The status word (R21)

Its parts from bit 0 up are READY (1 bit), PHASE (2), MODE16 (1), ERR (3), a zero (1) and BLEN (8). -/

theorem statusWord_ready (e : Engine) : (statusWord e).getLsbD 0 = e.ready := by
  rw [statusWord, getLsbD_append_low (m := 1) _ _ (by decide)]
  simp

theorem statusWord_phase (e : Engine) : (statusWord e).extractLsb' 1 2 = phaseCode e.phase := by
  rw [statusWord, BitVec.extractLsb'_append_eq_of_le (w := 1) (by decide)]
  exact BitVec.extractLsb'_append_eq_right

theorem statusWord_mode16 (e : Engine) : (statusWord e).getLsbD 3 = e.mode16 := by
  rw [statusWord, getLsbD_append_high (m := 1) _ _ (by decide), getLsbD_append_high (m := 2) _ _ (by decide),
    getLsbD_append_low (m := 1) _ _ (by decide)]
  simp

theorem statusWord_err (e : Engine) : (statusWord e).extractLsb' 4 3 = errCode e.err := by
  rw [statusWord, BitVec.extractLsb'_append_eq_of_le (w := 1) (by decide),
    BitVec.extractLsb'_append_eq_of_le (w := 2) (by decide), BitVec.extractLsb'_append_eq_of_le (w := 1) (by decide)]
  exact BitVec.extractLsb'_append_eq_right

theorem statusWord_zero_bit (e : Engine) : (statusWord e).getLsbD 7 = false := by
  rw [statusWord, getLsbD_append_high (m := 1) _ _ (by decide), getLsbD_append_high (m := 2) _ _ (by decide),
    getLsbD_append_high (m := 1) _ _ (by decide), getLsbD_append_high (m := 3) _ _ (by decide),
    getLsbD_append_low (m := 1) _ _ (by decide)]
  rfl

theorem statusWord_blen (e : Engine) : (statusWord e).extractLsb' 8 8 = e.blen := by
  rw [statusWord, BitVec.extractLsb'_append_eq_of_le (w := 1) (by decide),
    BitVec.extractLsb'_append_eq_of_le (w := 2) (by decide), BitVec.extractLsb'_append_eq_of_le (w := 1) (by decide),
    BitVec.extractLsb'_append_eq_of_le (w := 3) (by decide)]
  exact BitVec.extractLsb'_append_eq_left

/-- Settles O33, field by field; `phaseCode` and `errCode` are the codes the statement lists. -/
theorem statusWordFields : Obligations.StatusWordFields := fun e =>
  ⟨statusWord_ready e, (statusWord_phase e).trans (by cases e.phase <;> rfl), statusWord_mode16 e,
    (statusWord_err e).trans (by cases e.err <;> rfl), statusWord_zero_bit e, statusWord_blen e⟩

/-! ## Equal outputs show equal registers (R30, R33) -/

theorem phaseCode_injective : Function.Injective phaseCode := by
  intro a b; cases a <;> cases b <;> decide

theorem errCode_injective : Function.Injective errCode := by
  intro a b; cases a <;> cases b <;> decide

theorem stageCode_injective : Function.Injective stageCode := by
  intro a b; cases a <;> cases b <;> decide

/-- Equal status words show equal BLEN, ERR, MODE16 and PHASE (R21). -/
theorem statusWord_inj {e e' : Engine} (h : statusWord e = statusWord e') :
    e.blen = e'.blen ∧ e.err = e'.err ∧ e.mode16 = e'.mode16 ∧ e.phase = e'.phase := by
  refine ⟨?_, errCode_injective ?_, ?_, phaseCode_injective ?_⟩
  · rw [← statusWord_blen, h, statusWord_blen]
  · rw [← statusWord_err, h, statusWord_err]
  · rw [← statusWord_mode16, h, statusWord_mode16]
  · rw [← statusWord_phase, h, statusWord_phase]

theorem traceEvent_ext {a b : TraceEvent} (hs : a.stage = b.stage) (hi : a.idx = b.idx) (hv : a.v = b.v) : a = b := by
  cases a
  cases b
  simp_all

/-- Equal trace ports, where they exist, show equal trace registers and `trace_valid` (R33, R98). -/
theorem tracePorts_inj {p : Params} {e e' : Engine} (hp : p.traceEn = true) (h : tracePorts p e = tracePorts p e') :
    e.trace = e'.trace ∧ e.traceValid = e'.traceValid := by
  simp only [tracePorts, hp, if_true, Option.some.injEq, TracePorts.mk.injEq] at h
  obtain ⟨hvalid, hv, hstage, hidx⟩ := h
  obtain ⟨hv, h0⟩ := append_inj (m := 64) hv
  obtain ⟨hv, h1⟩ := append_inj (m := 64) hv
  obtain ⟨h3, h2⟩ := append_inj (m := 64) hv
  exact ⟨traceEvent_ext (stageCode_injective hstage) hidx (VRegs.ext h0 h1 h2 h3), hvalid⟩

/-! ## What the hidden registers leave visible

Two engines look alike when nothing the host can see, now or after any edges, tells them apart: they agree on the
visible registers, on OUT0 and OUT1 unless PHASE is IDLE, on v0..v3 and MREG while a computation is open, and on RC and
FIN while a group is in progress, which is only inside an open computation (R29, R30). -/

/-- Two engines that agree on every register that a later output can depend on. -/
structure LooksAlike (p : Params) (e e' : Engine) : Prop where
  stage   : e.stage = e'.stage
  phase   : e.phase = e'.phase
  mode16  : e.mode16 = e'.mode16
  blen    : e.blen = e'.blen
  err     : e.err = e'.err
  digest  : e.phase ≠ .idle → e.out0 = e'.out0 ∧ e.out1 = e'.out1
  opened  : e.phase = .absorb → e.v = e'.v ∧ e.mreg = e'.mreg
  running : e.stage ≠ .idle → e.phase = .absorb ∧ e.rc = e'.rc ∧ e.fin = e'.fin
  trace   : p.traceEn = true → e.trace = e'.trace ∧ e.traceValid = e'.traceValid

section LooksAlike
variable {p : Params} {e e' : Engine}

/-- The equal outputs of a ready engine with no computation open show all that it needs (R29). -/
theorem looksAlike_of_outputs_eq (h : outputs p e = outputs p e') (hr : e.ready = true) (hph : e.phase ≠ .absorb) :
    LooksAlike p e e' := by
  simp only [outputs, Outputs.mk.injEq] at h
  obtain ⟨hready, hstatus, hvalid, hdigest, htrace⟩ := h
  obtain ⟨hblen, herr, hmode, hphase⟩ := statusWord_inj hstatus
  have hs : e.stage = .idle := (ready_iff e).mp hr
  have hs' : e'.stage = .idle := (ready_iff e').mp (hready ▸ hr)
  have hout (hidle : e.phase ≠ .idle) : e.out0 = e'.out0 ∧ e.out1 = e'.out1 := by
    have hdone : e.phase = .done := by cases he : e.phase <;> simp_all
    rw [← hvalid, if_pos (by simp [digestValid, hdone]), if_pos (by simp [digestValid, hdone]), Option.some.injEq]
      at hdigest
    exact (append_inj (m := 64) hdigest).symm
  exact { stage := hs.trans hs'.symm, phase := hphase, mode16 := hmode, blen := hblen, err := herr, digest := hout,
          opened := fun ho => absurd ho hph, running := fun hb => absurd hs hb, trace := fun hp => tracePorts_inj hp htrace }

theorem LooksAlike.outputs_eq (h : LooksAlike p e e') : outputs p e = outputs p e' := by
  have hready : e.ready = e'.ready := ready_congr h.stage
  have hvalid : digestValid e = digestValid e' := by simp [digestValid, h.phase]
  have hstatus : statusWord e = statusWord e' := by
    simp only [statusWord, h.blen, h.err, h.mode16, h.phase, hready]
  have hdigest : digestValid e = true → e.out0 = e'.out0 ∧ e.out1 = e'.out1 := fun hv =>
    h.digest (by simp_all [digestValid])
  have htrace : tracePorts p e = tracePorts p e' := by
    unfold tracePorts
    split
    next hp => rw [(h.trace hp).1, (h.trace hp).2]
    next => rfl
  simp only [outputs, hready, hstatus, ← hvalid, htrace, Outputs.mk.injEq, true_and, and_true]
  split
  next hv => rw [(hdigest hv).1, (hdigest hv).2]
  next => rfl

/-! ### Each part of an edge keeps two engines alike -/

theorem LooksAlike.reset : LooksAlike p Engine.reset Engine.reset := by
  constructor <;> simp [Engine.reset]

theorem LooksAlike.clearTraceValid (h : LooksAlike p e e') :
    LooksAlike p (clearTraceValid e) (clearTraceValid e') :=
  { h with trace := fun hp => ⟨(h.trace hp).1, rfl⟩ }

theorem LooksAlike.reject (k : ErrCode) (hs : e.stage = .idle) (h : LooksAlike p e e') :
    LooksAlike p (reject k e) (reject k e') :=
  { h with
    phase := rfl, err := by simp [h.err], digest := by simp, opened := by simp, running := fun hb => absurd hs hb }

/-- INIT writes every register that an open computation can show (R66). -/
theorem LooksAlike.initialise (m : Bool) (k0 k1 : Word) (hs : e.stage = .idle) (h : LooksAlike p e e') :
    LooksAlike p (initialise m k0 k1 e) (initialise m k0 k1 e') :=
  { h with
    phase := rfl, mode16 := rfl, blen := rfl, err := rfl, digest := fun _ => ⟨rfl, rfl⟩, opened := fun _ => ⟨rfl, rfl⟩,
    running := fun hb => absurd hs hb }

/-- Arming the C group writes RC and FIN, which the rounds read (R106). -/
theorem LooksAlike.armC (hph : e.phase = .absorb) (h : LooksAlike p e e') (m : Word) (n : BitVec 8) (r : BitVec 4)
    (f : Bool) :
    LooksAlike p { e with mreg := m, v := xorV3 e.v m, blen := n, stage := .c, rc := r, fin := f }
      { e' with mreg := m, v := xorV3 e'.v m, blen := n, stage := .c, rc := r, fin := f } :=
  { h with
    stage := rfl, blen := rfl, opened := fun ho => ⟨by rw [(h.opened ho).1], rfl⟩, running := fun _ => ⟨hph, rfl, rfl⟩ }

theorem LooksAlike.acceptEdge (hs : e.stage = .idle) (h : LooksAlike p e e') (q : Pins) :
    LooksAlike p (acceptEdge p q e) (acceptEdge p q e') := by
  have hclear := h.clearTraceValid
  unfold Machine.acceptEdge
  dsimp only
  split
  next =>
    simp only [clearTraceValid_phase, ← h.phase]
    split
    next k _ => exact hclear.reject k hs
    next => exact hclear.initialise false _ _ hs
    next => exact hclear.initialise true _ _ hs
    next hd =>
      have hopen : (Machine.clearTraceValid e).phase = .absorb := decodeAt_needsOpen hd rfl
      simpa only [acceptBlock, clearTraceValid_blen, ← h.blen] using
        hclear.armC hopen q.din (blenBlock e.blen) (BitVec.ofNat 4 p.cRounds) false
    next t hd =>
      have hopen : (Machine.clearTraceValid e).phase = .absorb := decodeAt_needsOpen hd rfl
      simpa only [acceptTail, clearTraceValid_blen, ← h.blen] using
        hclear.armC hopen (tailWord e.blen t q.din) (blenTail e.blen t) (BitVec.ofNat 4 p.cRounds) true
  next => exact hclear

theorem LooksAlike.emitTrace (ev : TraceEvent) (h : LooksAlike p e e') :
    LooksAlike p (emitTrace p ev e) (emitTrace p ev e') := by
  unfold Machine.emitTrace
  split
  next => exact { h with trace := fun _ => ⟨rfl, rfl⟩ }
  next => exact h

/-- While a group is in progress the two engines agree on all that its end reads: FIN, MODE16 and MREG (R108). -/
theorem LooksAlike.endOfGroup (s : VRegs) (hb : e.stage ≠ .idle) (h : LooksAlike p e e') :
    LooksAlike p (endOfGroup p s e) (endOfGroup p s e') := by
  obtain ⟨hph, -, hfin⟩ := h.running hb
  obtain ⟨-, hmreg⟩ := h.opened hph
  obtain ⟨hout0, hout1⟩ := h.digest (by simp [hph])
  simp only [Machine.endOfGroup, ← h.stage, ← hfin, ← h.mode16, ← hmreg]
  split
  next => exact h
  next =>
    split
    next =>
      exact { h with
        stage := rfl, mode16 := rfl, opened := fun _ => ⟨rfl, rfl⟩, running := fun _ => ⟨hph, rfl, rfl⟩ }
    next => exact { h with stage := rfl, mode16 := rfl, opened := fun _ => ⟨rfl, rfl⟩, running := by simp }
  next =>
    split
    next =>
      exact { h with
        stage := rfl, mode16 := rfl, digest := fun _ => ⟨rfl, hout1⟩, opened := fun _ => ⟨rfl, rfl⟩,
        running := fun _ => ⟨hph, rfl, rfl⟩ }
    next =>
      exact { h with
        stage := rfl, phase := rfl, mode16 := rfl, digest := fun _ => ⟨rfl, hout1⟩, opened := by simp,
        running := by simp }
  next =>
    exact { h with
      stage := rfl, phase := rfl, mode16 := rfl, digest := fun _ => ⟨hout0, rfl⟩, opened := by simp,
      running := by simp }

theorem LooksAlike.roundEdge (hb : e.stage ≠ .idle) (h : LooksAlike p e e') :
    LooksAlike p (roundEdge p e) (roundEdge p e') := by
  obtain ⟨hph, hrc, -⟩ := h.running hb
  obtain ⟨hv, -⟩ := h.opened hph
  have hevent : roundEvent p e' = roundEvent p e := by simp only [roundEvent, h.stage, hrc, hv]
  have htraced := h.emitTrace (roundEvent p e)
  by_cases hl : 1 < e.rc
  · rw [roundEdge_more p e hl, roundEdge_more p e' (hrc ▸ hl), hevent, ← hv, ← hrc]
    obtain ⟨-, -, hfin⟩ := htraced.running (by simpa using hb)
    exact { htraced with
      opened := fun ho => ⟨rfl, (htraced.opened ho).2⟩, running := fun _ => ⟨by simpa using hph, rfl, hfin⟩ }
  · rw [roundEdge_last p e hl, roundEdge_last p e' (hrc ▸ hl), hevent, ← hv]
    exact htraced.endOfGroup _ (by simpa using hb)

theorem LooksAlike.clockEdge (h : LooksAlike p e e') (q : Pins) :
    LooksAlike p (clockEdge p q e) (clockEdge p q e') := by
  unfold Machine.clockEdge
  rw [← ready_congr h.stage]
  split
  next => exact .reset
  next =>
    split
    next hr => exact h.acceptEdge ((ready_iff e).mp hr) q
    next hr => exact h.roundEdge (fun hs => hr ((ready_iff e).mpr hs))

theorem LooksAlike.clockEdges (h : LooksAlike p e e') (pins : List Pins) :
    LooksAlike p (clockEdges p pins e) (clockEdges p pins e') := by
  induction pins generalizing e e' with
  | nil => exact h
  | cons q rest ih => exact ih (h.clockEdge q)

end LooksAlike

/-- Settles O18: the two engines look alike, every sequence of edges keeps them so, and the outputs are then equal. -/
theorem leftoverStateIsHidden : Obligations.LeftoverStateIsHidden :=
  fun _ _ _ h hr hph pins => ((looksAlike_of_outputs_eq h hr hph).clockEdges pins).outputs_eq

end Sys2Proof.Machine
end

section
/-! PROOFS. The family of spec/10_state.md, continued: what one step does to the engine, who writes which register
(O27, O29, O30), and the frame of a command (O28). -/

namespace Sys2Proof.Machine

/-! ## Decoding an INIT (R51 to R58) -/

/-- The four ways through the checks of R57 end at the four rows, each with its fields fixed by the checks passed. -/
theorem fields_of_decodeFields {f : CmdFields} {i : Instr} (h : decodeFields f = .ok i) : f = i.fields := by
  obtain ⟨op, t, outlen, rsvd⟩ := f
  unfold decodeFields at h
  split_ifs at h <;> cases h
  all_goals simp_all [Instr.fields]

/-- Only the encoding of a command decodes to it (R57). -/
theorem encode_of_decode {w : CmdWord} {i : Instr} (h : decode w = .ok i) : w = encode i := by
  rw [← wordOf_fieldsOf w, fields_of_decodeFields h, encode]

/-- The INIT of a mode. -/
def initOf (mode16 : Bool) : Instr := if mode16 then .init16 else .init8

@[simp] theorem initOf_ne_absorb (m : Bool) : initOf m ≠ .absorb := by cases m <;> decide
@[simp] theorem initOf_ne_final (m : Bool) (n : BitVec 3) : initOf m ≠ .final n := by cases m <;> simp [initOf]

/-- The two INIT words are those that decode to an INIT, in every PHASE (R58). -/
theorem isInitWord_iff (w : CmdWord) (ph : Phase) : isInitWord w ↔ ∃ m, decodeAt w ph = .ok (initOf m) := by
  constructor
  · rintro (rfl | rfl)
    · exact ⟨false, by cases ph <;> decide⟩
    · exact ⟨true, by cases ph <;> decide⟩
  · rintro ⟨m, hd⟩
    have hw := encode_of_decode (decode_of_decodeAt hd)
    cases m
    · exact .inl (hw.trans (by decide))
    · exact .inr (hw.trans (by decide))

/-! ## The three kinds of rising edge (R103, R106, R107) -/

section Edge
variable {p : Params} {q : Pins} {e : Engine}

theorem clockEdge_of_rst (h : q.rst = true) : clockEdge p q e = Engine.reset := by
  simp [clockEdge, h]

theorem clockEdge_of_ready (h : q.rst = false) (hr : e.ready = true) : clockEdge p q e = acceptEdge p q e := by
  simp [clockEdge, h, hr]

theorem clockEdge_of_busy (h : q.rst = false) (hb : e.ready = false) : clockEdge p q e = roundEdge p e := by
  simp [clockEdge, h, hb]

end Edge

/-! ## What one step does to the engine -/

/-- The engine after one step, by what the step is: a reset edge, a step that accepts nothing (an idle edge or a read of
the digest), a round edge, a rejection, an INIT, and an ABSORB or a FINAL issued whole or started by its accept edge. -/
inductive StepEffect (s : State) : Engine → Prop
  | reset (hr : resetsNext s = true) : StepEffect s Engine.reset
  | hold (ha : acceptedWord s = none) (b : Bool) : StepEffect s { s.eng with traceValid := b }
  | round (ha : acceptedWord s = none) (hb : s.eng.ready = false) : StepEffect s (roundEdge Config.hardware s.eng)
  | reject {w : CmdWord} {k : ErrCode} (ha : acceptedWord s = some w) (hd : decodeAt w s.eng.phase = .error k) :
      StepEffect s (reject k (clearTraceValid s.eng))
  | init {w : CmdWord} (m : Bool) (k0 k1 : Word) (ha : acceptedWord s = some w)
      (hd : decodeAt w s.eng.phase = .ok (initOf m)) : StepEffect s (initialise m k0 k1 (clearTraceValid s.eng))
  | absorb {w : CmdWord} (x : Word) (ha : acceptedWord s = some w) (hd : decodeAt w s.eng.phase = .ok .absorb) :
      StepEffect s (absorb Config.hardware x (clearTraceValid s.eng))
  | startAbsorb {w : CmdWord} (x : Word) (ha : acceptedWord s = some w) (hd : decodeAt w s.eng.phase = .ok .absorb) :
      StepEffect s (acceptBlock Config.hardware x (clearTraceValid s.eng))
  | final {w : CmdWord} (n : BitVec 3) (x : Word) (ha : acceptedWord s = some w)
      (hd : decodeAt w s.eng.phase = .ok (.final n)) (hi : issuesFinal s) :
      StepEffect s (finalise Config.hardware n x (clearTraceValid s.eng))
  | startFinal {w : CmdWord} (n : BitVec 3) (x : Word) (ha : acceptedWord s = some w)
      (hd : decodeAt w s.eng.phase = .ok (.final n)) :
      StepEffect s (acceptTail Config.hardware n x (clearTraceValid s.eng))

theorem stepEffect_issue {s : State} {c : Command} {rest : List HostMove} (hh : s.host = .issue c :: rest)
    (hr : s.eng.ready = true) : StepEffect s (commandLevel Config.hardware c s.eng) := by
  have ha : acceptedWord s = some c.cmd := by simp [acceptedWord, hh, hr]
  obtain ⟨k, hd, heq⟩ | ⟨m, hd, heq⟩ | ⟨-, hd, heq⟩ | ⟨n, -, hd, heq⟩ := commandLevel_cases Config.hardware c s.eng
  all_goals rw [heq]
  · exact .reject ha hd
  · exact .init m _ _ ha hd
  · exact .absorb _ ha hd
  · exact .final n _ ha hd ⟨c, rest, n, hh, hr, hd⟩

theorem stepEffect_edge {s : State} {q : Pins} {rest : List HostMove} (hh : s.host = .edge q :: rest) :
    StepEffect s (clockEdge Config.hardware q s.eng) := by
  cases hrst : q.rst
  case true =>
    rw [clockEdge_of_rst hrst]
    exact .reset (by simp [resetsNext, hh, hrst])
  cases hr : s.eng.ready
  case false =>
    rw [clockEdge_of_busy hrst hr]
    exact .round (by simp [acceptedWord, hh, hr]) hr
  rw [clockEdge_of_ready hrst hr]
  obtain ⟨hv, heq⟩ | ⟨hv, hcases⟩ := acceptEdge_cases Config.hardware q s.eng
  · rw [heq]
    exact .hold (by simp [acceptedWord, hh, hv]) false
  have ha : acceptedWord s = some q.cmd := by simp [acceptedWord, hh, hrst, hv, hr]
  obtain ⟨k, hd, heq⟩ | ⟨m, hd, heq⟩ | ⟨-, hd, heq⟩ | ⟨n, -, hd, heq⟩ := hcases
  all_goals rw [heq]
  · exact .reject ha hd
  · exact .init m _ _ ha hd
  · exact .startAbsorb _ ha hd
  · exact .startFinal n _ ha hd

/-- With no move left nothing is accepted (R102, R116). -/
theorem stepEffect_release {s : State} (hh : s.host = []) :
    StepEffect s (clockEdge Config.hardware (release s.pins) s.eng) := by
  have ha : acceptedWord s = none := by simp [acceptedWord, hh]
  cases hr : s.eng.ready
  · rw [clockEdge_of_busy (release_rst _) hr]
    exact .round ha hr
  · rw [clockEdge_of_ready (release_rst _) hr, acceptEdge, if_neg (by simp)]
    exact .hold ha false

theorem stepEffect_of_step {s t : State} (h : step s = .next t) : StepEffect s t.eng := by
  obtain ⟨c, rest, hh, hr, rfl⟩ | ⟨c, rest, hh, hb, rfl⟩ | ⟨q, rest, hh, rfl⟩ | ⟨hh, rfl⟩ | ⟨rest, hh, -, rfl⟩ :=
    step_cases h
  · exact stepEffect_issue hh hr
  · exact .round (by simp [acceptedWord, hh, hb]) hb
  · exact stepEffect_edge hh
  · exact stepEffect_release hh
  · exact .hold (by simp [acceptedWord, hh]) s.eng.traceValid

/-! ### The effect is fixed by what the step accepts -/

section Effect
variable {s : State} {e : Engine}

theorem acceptedWord_of_resetsNext (hr : resetsNext s = true) : acceptedWord s = none := by
  unfold resetsNext at hr
  split at hr
  next q rest hh => simp [acceptedWord, hh, hr]
  next => cases hr

/-- A reset edge goes before everything else (R103). -/
theorem reset_of_resetsNext {t : State} (h : step s = .next t) (hr : resetsNext s = true) : t.eng = Engine.reset := by
  unfold resetsNext at hr
  split at hr
  next q rest hh =>
    simp only [step, hh, Host.Outcome.next.injEq] at h
    rw [← h, clockState_eng, clockEdge_of_rst hr]
  next => cases hr

theorem initialise_of_acceptsInit (h : StepEffect s e) (hi : acceptsInit s) :
    ∃ m k0 k1, e = initialise m k0 k1 (clearTraceValid s.eng) := by
  obtain ⟨w, ha, hw⟩ := hi
  obtain ⟨m, hd⟩ := (isInitWord_iff w s.eng.phase).mp hw
  cases h with
  | reset hr => simp [acceptedWord_of_resetsNext hr] at ha
  | init m k0 k1 => exact ⟨m, k0, k1, rfl⟩
  | _ => simp_all

theorem reject_of_acceptsRejected (h : StepEffect s e) (hj : acceptsRejected s) :
    ∃ k, e = reject k (clearTraceValid s.eng) := by
  obtain ⟨w, k, ha, hd⟩ := hj
  cases h with
  | reset hr => simp [acceptedWord_of_resetsNext hr] at ha
  | reject => exact ⟨_, rfl⟩
  | _ => simp_all

theorem done_of_issuesFinal {t : State} (h : step s = .next t) (hi : issuesFinal s) : t.eng.phase = .done := by
  obtain ⟨c, rest, n, hh, hr, hd⟩ := hi
  rw [step_issue_ready s c rest hh hr, Host.Outcome.next.injEq] at h
  rw [← h, commandLevel_of_final hd, finalise_phase]

/-- A word that decodes to an INIT is one of the two INIT words. -/
theorem acceptsInit_of_decode {w : CmdWord} {m : Bool} (ha : acceptedWord s = some w)
    (hd : decodeAt w s.eng.phase = .ok (initOf m)) : acceptsInit s :=
  ⟨w, ha, (isInitWord_iff w s.eng.phase).mpr ⟨m, hd⟩⟩

end Effect

/-! ## ERR (R18, R94) -/

/-- Settles O27: a reset and an INIT write 0, a rejection writes ERR only when it is 0, and no other effect writes it. -/
theorem errKeepsTheFirstCode : Obligations.ErrKeepsTheFirstCode := by
  intro s t h
  have heff := stepEffect_of_step h
  refine ⟨?_, fun hne hno => ?_⟩
  · rintro (hr | hi)
    · rw [reset_of_resetsNext h hr]
      rfl
    · obtain ⟨m, k0, k1, heq⟩ := initialise_of_acceptsInit heff hi
      rw [heq, initialise_err]
  generalize t.eng = e at heff
  cases heff with
  | reset hr => exact absurd (.inl hr) hno
  | init m k0 k1 ha hd => exact absurd (.inr (acceptsInit_of_decode ha hd)) hno
  | reject ha hd => simp [hne]
  | _ => simp

/-! ## PHASE (R16) -/

theorem absorb_of_busy {s : State} (hinv : s.Inv) (hb : s.eng.ready = false) : s.eng.phase = .absorb := by
  obtain ⟨⟨-, hbusy, -⟩, -⟩ := hinv
  exact (hbusy ((busy_iff _).mp hb)).2.2

/-- Only an open computation and an executed INIT lead to PHASE ABSORB. -/
theorem StepEffect.of_absorb {s : State} {e : Engine} (h : StepEffect s e) (hph : e.phase = .absorb) :
    s.eng.phase = .absorb ∨ acceptsInit s := by
  cases h with
  | reset => cases hph
  | hold => exact .inl hph
  | round =>
    obtain heq | hdone := roundEdge_phase Config.hardware s.eng
    · exact .inl (heq ▸ hph)
    · simp [hdone] at hph
  | reject => cases hph
  | init m k0 k1 ha hd => exact .inr (acceptsInit_of_decode ha hd)
  | absorb x ha hd | startAbsorb x ha hd | final n x ha hd | startFinal n x ha hd =>
    exact .inl (decodeAt_needsOpen hd rfl)

/-- Only a FINAL that completes leads to PHASE DONE; the last round edge of one is in D1 or D2, where FIN = 1. -/
theorem StepEffect.of_done {s : State} {e : Engine} (hinv : s.Inv) (h : StepEffect s e) (hph : e.phase = .done) :
    (s.eng.phase = .done ∧ acceptedWord s = none) ∨
      (s.eng.phase = .absorb ∧ (issuesFinal s ∨ (s.eng.ready = false ∧ s.eng.fin = true ∧ e.ready = true))) := by
  cases h with
  | reset => cases hph
  | hold ha => exact .inl ⟨hph, ha⟩
  | round ha hb =>
    have hopen := absorb_of_busy hinv hb
    obtain ⟨hstage, hready⟩ := roundEdge_done Config.hardware s.eng (by simp [hopen]) hph
    obtain ⟨⟨-, -, hd1, hd2⟩, -⟩ := hinv
    have hfin : s.eng.fin = true := hstage.elim hd1 fun hs => (hd2 hs).1
    exact .inr ⟨hopen, .inr ⟨hb, hfin, hready⟩⟩
  | reject | init => cases hph
  | absorb x ha hd | startAbsorb x ha hd | startFinal n x ha hd => simp [decodeAt_needsOpen hd rfl] at hph
  | final n x ha hd hi => exact .inr ⟨decodeAt_needsOpen hd rfl, .inl hi⟩

/-- Only a reset and a rejection lead to PHASE IDLE. -/
theorem StepEffect.of_idle {s : State} {e : Engine} (h : StepEffect s e) (hph : e.phase = .idle) :
    s.eng.phase = .idle ∨ resetsNext s = true ∨ acceptsRejected s := by
  cases h with
  | reset hr => exact .inr (.inl hr)
  | hold => exact .inl hph
  | round =>
    obtain heq | hdone := roundEdge_phase Config.hardware s.eng
    · exact .inl (heq ▸ hph)
    · simp [hdone] at hph
  | reject ha hd => exact .inr (.inr ⟨_, _, ha, hd⟩)
  | absorb | startAbsorb | startFinal => exact .inl (by simpa using hph)
  | init | final => simp at hph

/-- Settles O29: where a PHASE can come from, by the effects that lead to it, and what each listed event does. -/
theorem phaseMovesOnlyAsListed : Obligations.PhaseMovesOnlyAsListed := by
  intro s t hinv h
  have heff := stepEffect_of_step h
  refine ⟨heff.of_absorb, heff.of_done hinv, heff.of_idle, fun hi => ?_, done_of_issuesFinal h, ?_⟩
  · obtain ⟨m, k0, k1, heq⟩ := initialise_of_acceptsInit heff hi
    rw [heq, initialise_phase]
  · rintro (hr | hj)
    · rw [reset_of_resetsNext h hr]
      rfl
    · obtain ⟨k, heq⟩ := reject_of_acceptsRejected heff hj
      rw [heq, reject_phase]

/-! ## Who writes which register (R13, R15, R17, R19, R22, R108) -/

/-- The last round of D1 is the only round that writes OUT0, and the last of D2 the only one that writes OUT1. -/
theorem roundEdge_writes (p : Params) (e : Engine) :
    ((roundEdge p e).out0 ≠ e.out0 → e.stage = .d1 ∧ ¬ 1 < e.rc) ∧
    ((roundEdge p e).out1 ≠ e.out1 → e.stage = .d2 ∧ ¬ 1 < e.rc) :=
  ⟨fun hne => not_not.mp fun h => hne (roundEdge_out0 p e h), fun hne => not_not.mp fun h => hne (roundEdge_out1 p e h)⟩

/-- FINAL in 8-byte mode leaves OUT1 (R74). -/
theorem finalise_out1_of_mode8 {p : Params} {n : BitVec 3} {w : Word} {e : Engine} (h : e.mode16 = false) :
    (finalise p n w e).out1 = e.out1 := by
  simp [h]

/-- Settles O30, by the effects of a step: what an effect does not write is equal, and what it writes names the event. -/
theorem registersHaveOnlyTheirWriters : Obligations.RegistersHaveOnlyTheirWriters := by
  intro s t h hno
  have heff := stepEffect_of_step h
  generalize t.eng = e at heff
  cases heff with
  | reset hr => simp [hr] at hno
  | hold | reject => simp
  | round ha hb =>
    obtain ⟨hout0, hout1⟩ := roundEdge_writes Config.hardware s.eng
    exact ⟨fun _ => .inl hb, by simp, by simp, by simp, fun hne => .inr (.inr (hout0 hne)),
      fun hne => .inr (.inr (hout1 hne))⟩
  | init m k0 k1 ha hd =>
    have hi : acceptsInit s := acceptsInit_of_decode ha hd
    have hx : acceptsExecuted s := ⟨_, _, ha, hd⟩
    exact ⟨fun _ => .inr hx, fun _ => hi, fun _ => hx, fun _ => hx, fun _ => .inl hi, fun _ => .inl hi⟩
  | absorb x ha hd | startAbsorb x ha hd | startFinal n x ha hd =>
    have hx : acceptsExecuted s := ⟨_, _, ha, hd⟩
    exact ⟨fun _ => .inr hx, by simp, fun _ => hx, fun _ => hx, by simp, by simp⟩
  | final n x ha hd hi =>
    have hx : acceptsExecuted s := ⟨_, _, ha, hd⟩
    have hout1 : (finalise Config.hardware n x (clearTraceValid s.eng)).out1 ≠ s.eng.out1 → s.eng.mode16 = true :=
      fun hne => by
        by_contra hm
        exact hne (finalise_out1_of_mode8 (by simpa using hm))
    exact ⟨fun _ => .inr hx, by simp, fun _ => hx, fun _ => hx, fun _ => .inr (.inl hi),
      fun hne => .inr (.inl ⟨hi, hout1 hne⟩)⟩

/-! ## The frame of a command on a ready engine (R13, R15, R18, R19, R22, R93) -/

theorem inSequence_of_absorb {run : Engine → Engine} {e : Engine} (h : e.phase = .absorb) : inSequence run e = run e :=
  if_pos h

theorem inSequence_of_ne {run : Engine → Engine} {e : Engine} (h : e.phase ≠ .absorb) :
    inSequence run e = reject .sequence e := if_neg h

/-- Everything a command can do to a ready engine: an INIT, a rejection out of sequence (R91), or an ABSORB or FINAL in
PHASE ABSORB; it changes nothing but the engine. -/
theorem exec_ready_cases {i : Instr} {s t : State} (hr : s.eng.ready = true) (h : exec i s = .next t) :
    ∃ e, t = { s with eng := e } ∧
      ((∃ m, i = initOf m ∧ e = initialise m s.pins.key0 s.pins.key1 (clearTraceValid s.eng)) ∨
       (needsOpen i = true ∧ s.eng.phase ≠ .absorb ∧ e = reject .sequence (clearTraceValid s.eng)) ∨
       (i = .absorb ∧ s.eng.phase = .absorb ∧ e = absorb Config.hardware s.pins.din (clearTraceValid s.eng)) ∨
       (∃ n, i = .final n ∧ s.eng.phase = .absorb ∧
          e = finalise Config.hardware n s.pins.din (clearTraceValid s.eng))) := by
  cases i with
  | init8 =>
    simp only [exec, execInit8, offer_eq, hr, if_true, Host.Outcome.next.injEq] at h
    exact ⟨_, h.symm, .inl ⟨false, rfl, rfl⟩⟩
  | init16 =>
    simp only [exec, execInit16, offer_eq, hr, if_true, Host.Outcome.next.injEq] at h
    exact ⟨_, h.symm, .inl ⟨true, rfl, rfl⟩⟩
  | absorb =>
    simp only [exec, execAbsorb, offer_eq, hr, if_true, Host.Outcome.next.injEq] at h
    by_cases hph : s.eng.phase = .absorb
    · exact ⟨_, h.symm, .inr (.inr (.inl ⟨rfl, hph, inSequence_of_absorb hph⟩))⟩
    · exact ⟨_, h.symm, .inr (.inl ⟨rfl, hph, inSequence_of_ne hph⟩)⟩
  | final n =>
    simp only [exec, execFinal, offer_eq, hr, if_true, Host.Outcome.next.injEq] at h
    by_cases hph : s.eng.phase = .absorb
    · exact ⟨_, h.symm, .inr (.inr (.inr ⟨n, rfl, hph, inSequence_of_absorb hph⟩))⟩
    · exact ⟨_, h.symm, .inr (.inl ⟨rfl, hph, inSequence_of_ne hph⟩)⟩

/-! ### The trace of this hardware, which has TRACE_EN = 0 -/

theorem compress_trace_hardware (m : Word) (e : Engine) : (compress Config.hardware m e).trace = e.trace := by
  simp only [compress, runRounds_hardware]

@[simp] theorem absorb_trace_hardware (m : Word) (e : Engine) : (absorb Config.hardware m e).trace = e.trace := by
  simp only [absorb, compress_trace_hardware]

@[simp] theorem finalise_trace_hardware (n : BitVec 3) (w : Word) (e : Engine) :
    (finalise Config.hardware n w e).trace = e.trace := by
  simp only [finalise, firstPass, secondPass, runRounds_hardware]
  split <;> simp only [compress_trace_hardware]

@[simp] theorem hardware_traceEn : Config.hardware.traceEn = false := rfl

/-- Settles O28, by what the command does; each register is read off the operation that was run. -/
theorem commandFrame : Obligations.CommandFrame := by
  intro i s t hr h
  have hs : s.eng.stage = .idle := (ready_iff s.eng).mp hr
  obtain ⟨e, rfl, ⟨m, rfl, rfl⟩ | ⟨hn, hph, rfl⟩ | ⟨rfl, hph, rfl⟩ | ⟨n, rfl, hph, rfl⟩⟩ := exec_ready_cases hr h
  · cases m <;> simp [initOf, needsOpen, ready_iff, hs]
  · simp [hph, ready_iff, hs]
  · simp [hph, ready_iff, hs]
  · simp +contextual [hph, ready_iff, hs]

end Sys2Proof.Machine
end

section
/-! PROOFS. The family of spec/20_memory.md: every move of the host is answered (O15), an issued command (O13, O14, O31,
O46), the lanes of `din` that a FINAL reads (O22), and the digest port (O34, O35). -/

namespace Sys2Proof.Machine

/-! ## The host's read of the digest (R40, R41) -/

theorem digestValid_iff (e : Engine) : digestValid e = true ↔ e.phase = .done := decide_eq_true_iff

theorem readDigest_of_done {e : Engine} (h : e.phase = .done) : readDigest e = .next (e.out1 ++ e.out0) :=
  if_pos ((digestValid_iff e).mpr h)

theorem readDigest_of_not_done {e : Engine} (h : e.phase ≠ .done) : readDigest e = .fault .digestNotValid :=
  if_neg (mt (digestValid_iff e).mp h)

/-- A read that gives a value gives the two digest registers. -/
theorem eq_of_readDigest {e : Engine} {d : BitVec 128} (h : readDigest e = .next d) : d = e.out1 ++ e.out0 := by
  by_cases hph : e.phase = .done
  · rw [readDigest_of_done hph, Host.Outcome.next.injEq] at h
    exact h.symm
  · rw [readDigest_of_not_done hph] at h
    cases h

/-! ## The step on each other kind of move -/

section Step
variable {s : State} {rest : List HostMove}

theorem step_of_no_move (hh : s.host = []) : step s = .next (clockState (release s.pins) s) := by
  simp only [step, hh]

theorem step_edge {q : Pins} (hh : s.host = .edge q :: rest) :
    step s = .next { eng := clockEdge Config.hardware q s.eng, pins := q, host := rest } := by
  simp only [step, hh, clockState]

theorem step_readDigest_of_done (hh : s.host = .readDigest :: rest) (hph : s.eng.phase = .done) :
    step s = .next { s with host := rest } := by
  simp only [step, hh, takeDigest, readDigest_of_done hph]

theorem step_readDigest_of_not_done (hh : s.host = .readDigest :: rest) (hph : s.eng.phase ≠ .done) :
    step s = .fault .digestNotValid := by
  simp only [step, hh, takeDigest, readDigest_of_not_done hph]

/-- A command issued to a ready or to a busy engine is answered by a next state (R86). -/
theorem step_issue_answered {c : Command} (hh : s.host = .issue c :: rest) : ∃ t, step s = .next t := by
  cases hr : s.eng.ready
  · exact ⟨_, step_issue_busy s c rest hh hr⟩
  · exact ⟨_, step_issue_ready s c rest hh hr⟩

end Step

/-- Settles O15, by the host's next move. -/
theorem everyMoveIsAnswered : Obligations.EveryMoveIsAnswered := by
  refine ⟨fun s => ?_, fun s q rest hh => ⟨step_edge hh, fun hrst => ?_⟩⟩
  · rcases hh : s.host with _ | ⟨c | q | -, rest⟩
    · exact .inl ⟨_, step_of_no_move hh⟩
    · exact .inl (step_issue_answered hh)
    · exact .inl ⟨_, step_edge hh⟩
    · by_cases hph : s.eng.phase = .done
      · exact .inl ⟨_, step_readDigest_of_done hh hph⟩
      · exact .inr ⟨step_readDigest_of_not_done hh hph, hph, rest, rfl⟩
  · rw [step_edge hh, clockEdge_of_rst hrst]
    rfl

/-! ## The lanes of `din` below the tail count (R38, R70) -/

/-- Bit `i` of a word is bit `i % 8` of its byte `i / 8`. -/
theorem getLsbD_byteOf (w : Word) (i : Nat) : (byteOf w (i / 8)).getLsbD (i % 8) = w.getLsbD i := by
  simp only [byteOf, BitVec.getLsbD_extractLsb', Nat.mod_lt i (by decide : 0 < 8), decide_true, Bool.true_and,
    Nat.div_add_mod]

/-- The mask of a tail of `t` bytes keeps only bits of the lanes below `t`. -/
theorem and_tailMask_congr {t : BitVec 3} {w w' : Word} (h : agreeOnLanes t w w') :
    w &&& tailMask t = w' &&& tailMask t := by
  refine BitVec.eq_of_getLsbD_eq fun i hi => ?_
  rw [BitVec.getLsbD_and, BitVec.getLsbD_and, tailMask_getLsbD t i hi]
  by_cases hlane : i < 8 * t.toNat
  · rw [← getLsbD_byteOf w i, h (i / 8) (by omega), getLsbD_byteOf]
  · simp [hlane]

theorem tailWord_congr (blen : BitVec 8) {t : BitVec 3} {w w' : Word} (h : agreeOnLanes t w w') :
    tailWord blen t w = tailWord blen t w' := by
  rw [tailWord, tailWord, and_tailMask_congr h]

/-- The data of a FINAL enters it only as the tail word. -/
theorem finalise_congr (p : Params) {t : BitVec 3} {w w' : Word} (h : agreeOnLanes t w w') :
    finalise p t w = finalise p t w' := by
  funext e
  rw [finalise, finalise, tailWord_congr e.blen h]

/-- Settles O22: the data port enters a FINAL only through `finalise`. -/
theorem finalIgnoresLanesAboveTheTail : Obligations.FinalIgnoresLanesAboveTheTail := by
  intro s t w h
  refine ⟨_, rfl, ?_⟩
  simp only [exec, execFinal, offer_eq, finalise_congr _ h]

/-! ## A command offered to a busy engine (R34, R35, R107, R111) -/

/-- Settles O31: with READY = 0 an edge without reset is the round edge, which has no port among its arguments. -/
theorem busyEngineAcceptsNothing : Obligations.BusyEngineAcceptsNothing := by
  refine ⟨fun p e q q' hb hq hq' => ?_, fun i s hb => ?_, fun s c rest hb hh => ?_⟩
  · rw [clockEdge_of_busy hq hb, clockEdge_of_busy hq' hb]
  · rw [exec_busy i s hb, clockEdge_of_busy (release_rst _) hb]
  · rw [step_issue_busy s c rest hh hb, clockEdge_of_busy (drive_rst c) hb]

/-! ## The digest port byte by byte (R40) -/

theorem digestBytes_length (m : Bool) (d : BitVec 128) : (digestBytes m d).length = if m then 16 else 8 := by
  simp [digestBytes]

theorem digestBytes_getElem? {m : Bool} {n : Nat} (d : BitVec 128) (h : n < if m then 16 else 8) :
    (digestBytes m d)[n]? = some (d.extractLsb' (8 * n) 8) := by
  simp [digestBytes, List.getElem?_range h]

/-- The low eight bytes of a digest are those of its low word. -/
theorem byte_append_low (a b : Word) {n : Nat} (h : n < 8) : (a ++ b).extractLsb' (8 * n) 8 = byteOf b n :=
  BitVec.extractLsb'_append_eq_of_add_le (by omega)

/-- The high eight bytes of a digest are those of its high word. -/
theorem byte_append_high (a b : Word) (n : Nat) : (a ++ b).extractLsb' (8 * (n + 8)) 8 = byteOf a n := by
  have hoffset : 8 * (n + 8) - 64 = 8 * n := by omega
  rw [BitVec.extractLsb'_append_eq_of_le (by omega), hoffset, byteOf]

/-- Settles O34: a byte of the port is a byte of OUT0 or OUT1, and `DigestOk` makes OUT1 0 in 8-byte mode. -/
theorem digestPortIsLittleEndian : Obligations.DigestPortIsLittleEndian := by
  intro e d hd
  obtain rfl := eq_of_readDigest hd
  have hhigh : (e.out1 ++ e.out0).extractLsb' 64 64 = e.out1 := BitVec.extractLsb'_append_eq_left
  refine ⟨BitVec.extractLsb'_append_eq_right, hhigh, digestBytes_length .., digestBytes_length .., fun n hn => ?_,
    fun hinv hm => ?_⟩
  · rw [digestBytes_getElem? _ hn, digestBytes_getElem? (m := true) _ (by simp; omega),
      digestBytes_getElem? (m := true) _ (by simp; omega), byte_append_low _ _ hn, byte_append_high]
    exact ⟨rfl, rfl, rfl⟩
  · obtain ⟨-, ⟨hout1, -⟩, -⟩ := hinv
    rw [hhigh, hout1 hm]

/-! ## How long a digest is valid (R41, R112) -/

/-- In PHASE DONE an accepted command starts another computation or is rejected: either ends the digest. -/
theorem StepEffect.not_done_of_accepted {s : State} {e : Engine} (h : StepEffect s e) (hinv : s.Inv)
    (hph : s.eng.phase = .done) (ha : (acceptedWord s).isSome = true) : e.phase ≠ .done := by
  intro hdone
  obtain ⟨-, hnone⟩ | ⟨hopen, -⟩ := h.of_done hinv hdone
  · simp [hnone] at ha
  · simp [hph] at hopen

/-- In PHASE DONE a step that is no reset and accepts nothing is a hold: no round is in progress. -/
theorem StepEffect.hold_of_done {s : State} {e : Engine} (h : StepEffect s e) (hinv : s.Inv)
    (hph : s.eng.phase = .done) (hr : resetsNext s ≠ true) (hnone : acceptedWord s = none) :
    ∃ b, e = { s.eng with traceValid := b } := by
  cases h with
  | reset hreset => exact absurd hreset hr
  | hold _ b => exact ⟨b, rfl⟩
  | round _ hb => simp [absorb_of_busy hinv hb] at hph
  | reject ha | init _ _ _ ha | absorb _ ha | startAbsorb _ ha | final _ _ ha | startFinal _ _ ha => simp [hnone] at ha

/-- Settles O35: the read by PHASE, and the end of the validity by the effect of the step. -/
theorem digestValidUntilNextAccept : Obligations.DigestValidUntilNextAccept := by
  refine ⟨fun e => ⟨digestValid_iff e, readDigest_of_done, readDigest_of_not_done⟩,
    fun s rest => step_readDigest_of_done, fun s rest => step_readDigest_of_not_done, fun s t hinv hstep hph => ?_⟩
  have heff := stepEffect_of_step hstep
  split_ifs with hends
  · have hclosed : t.eng.phase ≠ .done := by
      obtain hr | ha := hends
      · rw [reset_of_resetsNext hstep hr]
        decide
      · exact heff.not_done_of_accepted hinv hph ha
    exact decide_eq_false hclosed
  · obtain ⟨hr, ha⟩ := not_or.mp hends
    obtain ⟨b, heq⟩ := heff.hold_of_done hinv hph hr (by simpa using ha)
    rw [heq]
    exact ⟨(digestValid_iff _).mpr hph, rfl⟩

/-! ## Commands issued in order (R34, R46, R60) -/

/-- A command level step is atomic: it leaves READY as it was (R7). -/
theorem commandLevel_ready (p : Params) (c : Command) (e : Engine) : (commandLevel p c e).ready = e.ready := by
  obtain ⟨k, -, heq⟩ | ⟨m, -, heq⟩ | ⟨-, -, heq⟩ | ⟨t, -, -, heq⟩ := commandLevel_cases p c e
  all_goals exact ready_congr (by simp [heq])

theorem run_succ_of_step {s t : State} (n : Nat) (h : step s = .next t) :
    Host.Core.run core (n + 1) s = Host.Core.run core n t := by
  have hcore : core.step s = .next t := h
  simp only [Host.Core.run, hcore]

/-- Settles O46, by induction on the statements: each step leaves the engine ready for the next. -/
theorem issuedCommandsRunInOrder : Obligations.IssuedCommandsRunInOrder := by
  intro stmts rest
  induction stmts with
  | nil => exact fun s _ hh => ⟨s, rfl, rfl, hh⟩
  | cons st stmts ih =>
    intro s hr hh
    have hstep := step_issue_ready s (stmtCommand st) (issueAll stmts ++ rest) hh hr
    rw [List.length_cons, run_succ_of_step _ hstep]
    exact ih _ ((commandLevel_ready ..).trans hr) rfl

/-! ## The step on an issued and on a placed command (R34, R57, R59) -/

theorem present_of_issue {s : State} {c : Command} {rest : List HostMove} (hh : s.host = .issue c :: rest) :
    present c s = { s with pins := drive c, host := if s.eng.ready then rest else s.host } := by
  simp only [present, hh, List.tail_cons]

theorem step_issue_of_decode {s : State} {c : Command} {rest : List HostMove} {i : Instr}
    (hh : s.host = .issue c :: rest) (hd : decode c.cmd = .ok i) : step s = exec i (present c s) := by
  simp only [step, hh, hd]

theorem step_issue_of_decode_error {s : State} {c : Command} {rest : List HostMove} {code : ErrCode}
    (hh : s.host = .issue c :: rest) (hd : decode c.cmd = .error code) : step s = rejectWord code (present c s) := by
  simp only [step, hh, hd]

/-- Settles O13: `step` presents the command and branches on its decoding. -/
theorem stepRunsTheDecodedCommand : Obligations.StepRunsTheDecodedCommand := by
  intro s c rest hh
  rw [← present_of_issue hh]
  exact ⟨fun i => step_issue_of_decode hh, fun code => step_issue_of_decode_error hh⟩

/-- Placing a word on a ready engine puts its command in front of the moves and changes nothing else. -/
theorem withFetchWord_of_ready {s : State} (w : CmdWord) (hr : s.eng.ready = true) :
    s.withFetchWord 16 w.toNat =
      { s with host := .issue { cmd := w, din := s.pins.din, key0 := s.pins.key0, key1 := s.pins.key1 } :: s.host } := by
  have hword : BitVec.ofNat 16 (w.toNat % 2 ^ 16) = w := by
    rw [Nat.mod_eq_of_lt w.isLt, BitVec.ofNat_toNat, BitVec.setWidth_eq]
  simp only [State.withFetchWord, loadCommand, hr, if_true, hword]

/-- Settles O14: the placed word is the host's next move, and presenting it takes it from the moves again. -/
theorem placedWordRunsNext : Obligations.PlacedWordRunsNext := by
  intro s w i hr hd
  rw [withFetchWord_of_ready w hr, step_issue_of_decode rfl hd, present_of_issue rfl]
  simp only [hr, if_true]

end Sys2Proof.Machine
end

section
/-! PROOFS. The family of spec/30_encoding.md: the decoder and the encoder (O8, O9, O10, O12), the ports a command
ignores (O32), and HASH: the edges it takes (O42) and the function it computes (O47). -/

namespace Sys2Proof.Machine

/-! ## The decoder and the encoder (R50 to R58, R62) -/

/-- The fields of each command pass every check of R57. -/
theorem decodeFields_fields (i : Instr) : decodeFields i.fields = .ok i := by
  cases i <;> rfl

theorem decode_encode (i : Instr) : decode (encode i) = .ok i := by
  rw [decode, encode, fieldsOf_wordOf, decodeFields_fields]

/-- Settles O8: one direction reads the fields off the checks that were passed, the other passes the checks. -/
theorem decodeIsInverseOfEncode : Obligations.DecodeIsInverseOfEncode :=
  fun _ i => ⟨encode_of_decode, fun hw => hw ▸ decode_encode i⟩

/-- The mask of FINAL keeps every field but the tail count (R62). -/
theorem fieldsOf_and_mask (w : CmdWord) : fieldsOf (w &&& 0xFFC7) = { fieldsOf w with t := 0 } := by
  have hop : BitVec.extractLsb' 0 3 (0xFFC7 : CmdWord) = BitVec.allOnes 3 := by decide
  have ht : BitVec.extractLsb' 3 3 (0xFFC7 : CmdWord) = 0 := by decide
  have houtlen : BitVec.extractLsb' 6 5 (0xFFC7 : CmdWord) = BitVec.allOnes 5 := by decide
  have hrsvd : BitVec.extractLsb' 11 5 (0xFFC7 : CmdWord) = BitVec.allOnes 5 := by decide
  simp only [fieldsOf, BitVec.extractLsb'_and, hop, ht, houtlen, hrsvd, BitVec.and_allOnes]
  exact congrArg (fun t => ({ fieldsOf w with t := t } : CmdFields)) BitVec.and_zero

/-- The words of FINAL are those of its row: OP = 3, any T, and zeros (R62). -/
theorem encode_final_iff (w : CmdWord) : (∃ t, w = encode (.final t)) ↔ w &&& 0xFFC7 = 0x0003 := by
  constructor
  · rintro ⟨t, rfl⟩
    obtain ⟨-, hrow, -⟩ := Laws.TableRow.final t
    exact hrow
  · intro hw
    have hrow : { fieldsOf w with t := 0 } = (Instr.final 0).fields := by
      rw [← fieldsOf_and_mask, hw]
      decide
    have hfields : fieldsOf w = (Instr.final (fieldsOf w).t).fields :=
      congrArg (fun f => { f with t := (fieldsOf w).t }) hrow
    exact ⟨(fieldsOf w).t, by rw [encode, ← hfields, wordOf_fieldsOf]⟩

/-- Settles O9: a full mask leaves the word, which is then compared with the encoding; FINAL is `encode_final_iff`. -/
theorem opcodeMapDecidesTheCommand : Obligations.OpcodeMapDecidesTheCommand := by
  intro w
  have hfull : w &&& 0xFFFF = w := BitVec.and_allOnes
  simp only [decodeIsInverseOfEncode w, hfull]
  exact ⟨Iff.rfl, Iff.rfl, Iff.rfl, encode_final_iff w⟩

/-! ### The words that are executed -/

/-- A command is executed when PHASE allows it (R57, R91). -/
theorem decodeAt_encode {i : Instr} {ph : Phase} (h : needsOpen i = true → ph = .absorb) :
    decodeAt (encode i) ph = .ok i := by
  simp only [decodeAt, decode_encode, ne_eq]
  exact if_neg fun ⟨hopen, hph⟩ => hph (h hopen)

/-- PHASE ABSORB allows every command. -/
theorem decodeAt_absorb_iff (w : CmdWord) (i : Instr) : decodeAt w .absorb = .ok i ↔ w = encode i :=
  ⟨fun hd => encode_of_decode (decode_of_decodeAt hd), fun hw => hw ▸ decodeAt_encode fun _ => rfl⟩

/-- A command that needs no open computation is an INIT. -/
theorem eq_initOf_of_needsOpen {i : Instr} (h : needsOpen i = false) : ∃ m, i = initOf m := by
  cases i with
  | init8 => exact ⟨false, rfl⟩
  | init16 => exact ⟨true, rfl⟩
  | absorb | final => cases h

/-- The commands: two INITs, ABSORB, and a FINAL for each tail count. -/
def allCommands : List Instr :=
  [.init8, .init16, .absorb, .final 0, .final 1, .final 2, .final 3, .final 4, .final 5, .final 6, .final 7]

theorem mem_allCommands (i : Instr) : i ∈ allCommands := by
  cases i with
  | init8 | init16 | absorb => decide
  | final t => revert t; decide

/-- Settles O10: the eleven words are the encodings of `allCommands`; outside PHASE ABSORB only the INITs are left. -/
theorem elevenWordsAreExecuted : Obligations.ElevenWordsAreExecuted := by
  intro w
  refine ⟨?_, fun ph hph => ?_⟩
  · have hwords : [0x0201, 0x0401, 0x0002, 0x0003, 0x000B, 0x0013, 0x001B, 0x0023, 0x002B, 0x0033, 0x003B] =
        allCommands.map encode := by decide
    simp only [decodeAt_absorb_iff, hwords, List.mem_map, mem_allCommands, true_and, eq_comm (a := w)]
  · refine Iff.trans ⟨?_, ?_⟩ (isInitWord_iff w ph).symm
    · rintro ⟨i, hd⟩
      have hclosed : needsOpen i = false := Bool.eq_false_iff.mpr fun hopen => hph (decodeAt_needsOpen hd hopen)
      obtain ⟨m, rfl⟩ := eq_initOf_of_needsOpen hclosed
      exact ⟨m, hd⟩
    · exact fun ⟨m, hd⟩ => ⟨initOf m, hd⟩

/-- Settles O12: nine closed words. -/
theorem writtenOutWordsDecode : Obligations.WrittenOutWordsDecode := by
  unfold Obligations.WrittenOutWordsDecode
  decide

/-! ## The ports a command ignores (R56) -/

/-- Settles O32: each meaning offers an effect in which only the ports its command reads occur. -/
theorem ignoredPortsHaveNoEffect : Obligations.IgnoredPortsHaveNoEffect := by
  intro s d k0 k1 t
  constructor
  · rintro i (rfl | rfl)
    · exact ⟨_, offer_eq s (initialise false s.pins.key0 s.pins.key1), rfl⟩
    · exact ⟨_, offer_eq s (initialise true s.pins.key0 s.pins.key1), rfl⟩
  · rintro i (rfl | rfl)
    · exact ⟨_, offer_eq s (inSequence (absorb Config.hardware s.pins.din)), rfl⟩
    · exact ⟨_, offer_eq s (inSequence (finalise Config.hardware t s.pins.din)), rfl⟩

/-! ## The statements of HASH (R60, R61) -/

/-- The INIT with which HASH begins. -/
def initStmt (mode16 : Bool) (k0 k1 : Word) : Stmt := if mode16 then .init16 k0 k1 else .init8 k0 k1

theorem hashStmts_eq (m : Bool) (k0 k1 : Word) (msg : List Byte) :
    hashStmts m k0 k1 msg = initStmt m k0 k1 :: hashTail msg := rfl

section Stmt
variable {p : Params} {e : Engine}

theorem decodeAt_initStmt (m : Bool) (k0 k1 : Word) (ph : Phase) :
    decodeAt (stmtCommand (initStmt m k0 k1)).cmd ph = .ok (initOf m) := by
  have hword : (stmtCommand (initStmt m k0 k1)).cmd = encode (initOf m) := by cases m <;> rfl
  rw [hword]
  exact decodeAt_encode fun hopen => by cases m <;> cases hopen

theorem decodeAt_absorbStmt (x : Word) : decodeAt (stmtCommand (.absorb x)).cmd .absorb = .ok .absorb :=
  (decodeAt_absorb_iff _ _).mpr rfl

theorem decodeAt_finalStmt (t : BitVec 3) (x : Word) :
    decodeAt (stmtCommand (.final t x)).cmd .absorb = .ok (.final t) := by
  have hword : ∀ t : BitVec 3, (0x0003 : CmdWord) ||| (t.setWidth 16 <<< 3) = encode (.final t) := by decide
  exact (decodeAt_absorb_iff _ _).mpr (hword t)

theorem commandLevel_initStmt (m : Bool) (k0 k1 : Word) :
    commandLevel p (stmtCommand (initStmt m k0 k1)) e = initialise m k0 k1 (clearTraceValid e) := by
  have hd := decodeAt_initStmt m k0 k1 e.phase
  cases m <;> simp only [commandLevel, clearTraceValid_phase, hd, initOf] <;> rfl

theorem commandLevel_absorbStmt (x : Word) (h : e.phase = .absorb) :
    commandLevel p (stmtCommand (.absorb x)) e = absorb p x (clearTraceValid e) :=
  commandLevel_of_absorb (h ▸ decodeAt_absorbStmt x)

theorem commandLevel_finalStmt (t : BitVec 3) (x : Word) (h : e.phase = .absorb) :
    commandLevel p (stmtCommand (.final t x)) e = finalise p t x (clearTraceValid e) :=
  commandLevel_of_final (h ▸ decodeAt_finalStmt t x)

/-! ### The busy edges of each statement (R110) -/

theorem latency_initStmt (m : Bool) (k0 k1 : Word) : latency p (stmtCommand (initStmt m k0 k1)) e = 0 := by
  have hd := decodeAt_initStmt m k0 k1 e.phase
  cases m <;> simp only [latency, hd, initOf] <;> rfl

theorem latency_absorbStmt (x : Word) (h : e.phase = .absorb) : latency p (stmtCommand (.absorb x)) e = p.cRounds := by
  simp only [latency, h, decodeAt_absorbStmt]

theorem latency_finalStmt (t : BitVec 3) (x : Word) (h : e.phase = .absorb) :
    latency p (stmtCommand (.final t x)) e = p.cRounds + (if e.mode16 then 2 * p.dRounds else p.dRounds) := by
  simp only [latency, h, decodeAt_finalStmt]

end Stmt

/-- Induction over a message as HASH cuts it: a tail of fewer than 8 bytes, or a block of 8 before the rest (R37). -/
theorem blocks_induction {motive : List Byte → Prop} (tail : ∀ l, l.length < 8 → motive l)
    (block : ∀ b0 b1 b2 b3 b4 b5 b6 b7 rest, motive rest → motive (b0 :: b1 :: b2 :: b3 :: b4 :: b5 :: b6 :: b7 :: rest))
    (msg : List Byte) : motive msg := by
  induction msg using hashTail.induct with
  | case1 b0 b1 b2 b3 b4 b5 b6 b7 rest ih => exact block b0 b1 b2 b3 b4 b5 b6 b7 rest ih
  | case2 l hl =>
    refine tail l (Nat.lt_of_not_le fun h => ?_)
    rcases l with _ | ⟨b0, _ | ⟨b1, _ | ⟨b2, _ | ⟨b3, _ | ⟨b4, _ | ⟨b5, _ | ⟨b6, _ | ⟨b7, rest⟩⟩⟩⟩⟩⟩⟩⟩
    case cons.cons.cons.cons.cons.cons.cons.cons => exact hl b0 b1 b2 b3 b4 b5 b6 b7 rest rfl
    all_goals simp at h

/-! ## The edges of a message (R110) -/

/-- The edges of the blocks and the tail, in an open computation. -/
theorem edgeTotal_hashTail (p : Params) (msg : List Byte) (e : Engine) (h : e.phase = .absorb) :
    edgeTotal p ((hashTail msg).map stmtCommand) e =
      msg.length / 8 * (1 + p.cRounds) + 1 + p.cRounds + p.dRounds + (if e.mode16 then p.dRounds else 0) := by
  induction msg using blocks_induction generalizing e with
  | tail l hl =>
    have hblocks : l.length / 8 = 0 := Nat.div_eq_of_lt hl
    simp only [hashTail_short l hl, List.map_cons, List.map_nil, edgeTotal, latency_finalStmt _ _ h, hblocks]
    split <;> omega
  | block b0 b1 b2 b3 b4 b5 b6 b7 rest ih =>
    have hblocks : (b0 :: b1 :: b2 :: b3 :: b4 :: b5 :: b6 :: b7 :: rest).length / 8 = rest.length / 8 + 1 := by
      simp only [List.length_cons]
      omega
    simp only [hashTail, List.map_cons, edgeTotal, latency_absorbStmt _ h, commandLevel_absorbStmt _ h]
    rw [ih _ (by simp [h]), hblocks, absorb_mode16, clearTraceValid_mode16, Nat.succ_mul]
    omega

/-- Settles O42: INIT takes its accept edge alone, and leaves the computation open in the mode. -/
theorem messageEdgeCount : Obligations.MessageEdgeCount := by
  intro p m k0 k1 msg e
  rw [hashStmts_eq, List.map_cons, edgeTotal, latency_initStmt, commandLevel_initStmt,
    edgeTotal_hashTail _ _ _ (initialise_phase ..), initialise_mode16]
  omega

/-! ## HASH computes the function of the source (R78) -/

theorem commandsLevel_ready (p : Params) (cs : List Command) (e : Engine) : (commandsLevel p cs e).ready = e.ready := by
  induction cs generalizing e with
  | nil => rfl
  | cons c cs ih => exact (ih _).trans (commandLevel_ready p c e)

/-- BLEN after a tail is its length added modulo 256 (R17). -/
theorem blenTail_ofNat (blen : BitVec 8) {n : Nat} (h : n < 8) :
    blenTail blen (BitVec.ofNat 3 n) = blen + BitVec.ofNat 8 n := by
  have hwiden : (BitVec.ofNat 3 n).setWidth 8 = BitVec.ofNat 8 n :=
    BitVec.eq_of_toNat_eq (by simp only [BitVec.toNat_setWidth, BitVec.toNat_ofNat]; omega)
  rw [blenTail, hwiden]

/-- The eight bytes of a block may be counted with the block or with the bytes after it (R17, R68). -/
theorem blenBlock_add_ofNat (blen : BitVec 8) (n : Nat) :
    blenBlock blen + BitVec.ofNat 8 n = blen + BitVec.ofNat 8 (n + 8) := by
  rw [blenBlock, BitVec.add_assoc, Nat.add_comm n 8, BitVec.ofNat_add]
  rfl

/-- The tail word is the reference's last word when BLEN ends at the length of the message (R70). -/
theorem tailWord_le64 {blen : BitVec 8} {len : Nat} {l : List Byte} (hl : l.length < 8)
    (hlen : blen + BitVec.ofNat 8 l.length = BitVec.ofNat 8 len) :
    tailWord blen (BitVec.ofNat 3 l.length) (le64 l) = (BitVec.ofNat 64 (len % 256) <<< 56) ||| le64 l := by
  have hbyte : (blenTail blen (BitVec.ofNat 3 l.length)).setWidth 64 = BitVec.ofNat 64 (len % 256) := by
    rw [blenTail_ofNat _ hl, hlen]
    exact BitVec.eq_of_toNat_eq (by simp only [BitVec.toNat_setWidth, BitVec.toNat_ofNat])
  rw [← hbyte, blenTail, tailWord, le64_and_tailMask l hl]

/-- `e'` is `e` after the rest of a message whose finalisation starts from the state registers `v` (R71 to R77). -/
structure Hashed (p : Params) (v : VRegs) (blen : BitVec 8) (e e' : Engine) : Prop where
  phase : e'.phase = .done
  err   : e'.err = e.err
  blen  : e'.blen = blen
  out0  : e'.out0 = foldV (refFinal p e.mode16 v)
  out1  : e'.out1 =
    if e.mode16 then foldV (rounds p.dRounds (xorV1 (refFinal p e.mode16 v) secondConst)) else e.out1

/-- An ABSORB before them leaves MODE16, ERR and OUT1 to the rest of the message (R67). -/
theorem Hashed.of_absorb {p : Params} {v : VRegs} {blen : BitVec 8} {m : Word} {e e' : Engine}
    (h : Hashed p v blen (absorb p m (clearTraceValid e)) e') : Hashed p v blen e e' :=
  { h with err := by simpa using h.err, out0 := by simpa using h.out0, out1 := by simpa using h.out1 }

/-- The blocks and the tail mix in the message as the reference does, while BLEN counts up to its length. -/
theorem hashed_hashTail (p : Params) (len : Nat) (msg : List Byte) (e : Engine) (h : e.phase = .absorb)
    (hlen : e.blen + BitVec.ofNat 8 msg.length = BitVec.ofNat 8 len) :
    Hashed p (refMessage p len e.v msg) (BitVec.ofNat 8 len) e
      (commandsLevel p ((hashTail msg).map stmtCommand) e) := by
  induction msg using blocks_induction generalizing e with
  | tail l hl =>
    simp only [hashTail_short l hl, refMessage_short p len e.v l hl, ← tailWord_le64 hl hlen, List.map_cons,
      List.map_nil, commandsLevel, commandLevel_finalStmt _ _ h]
    exact { phase := finalise_phase .., err := finalise_err .., out0 := finalise_out0 .., out1 := finalise_out1 ..,
            blen := by rw [finalise_blen, clearTraceValid_blen, blenTail_ofNat _ hl, hlen] }
  | block b0 b1 b2 b3 b4 b5 b6 b7 rest ih =>
    simp only [hashTail, refMessage, List.map_cons, commandsLevel, commandLevel_absorbStmt _ h]
    have hrest := ih (absorb p (le64 [b0, b1, b2, b3, b4, b5, b6, b7]) (clearTraceValid e)) (by simp [h])
      (by rw [absorb_blen, blenBlock_add_ofNat]; exact hlen)
    rw [absorb_v, clearTraceValid_v] at hrest
    exact hrest.of_absorb

/-! ### The digest in bytes (R40) -/

theorem digestBytes_mode8 (a b : Word) : digestBytes false (a ++ b) = wordBytes b :=
  List.map_congr_left fun _ hn => byte_append_low a b (List.mem_range.mp hn)

theorem digestBytes_mode16 (a b : Word) : digestBytes true (a ++ b) = wordBytes b ++ wordBytes a := by
  have hrange : List.range 16 = List.range 8 ++ (List.range 8).map (· + 8) := by decide
  rw [← digestBytes_mode8 a b]
  have hhigh : (List.range 8).map (fun n => (a ++ b).extractLsb' (8 * (n + 8)) 8) = wordBytes a :=
    List.map_congr_left fun n _ => byte_append_high a b n
  simp only [digestBytes, if_true, hrange, List.map_append, List.map_map]
  exact congrArg _ hhigh

/-- Settles O47: INIT opens the computation with the reference's start value, `hashed_hashTail` follows the message, and
the digest port gives OUT0 and OUT1 in bytes. -/
theorem hashComputesTheSourceFunction : Obligations.HashComputesTheSourceFunction := by
  intro p m k0 k1 msg e hr
  dsimp only
  rw [commandsLevel_ready, hashStmts_eq, List.map_cons, commandsLevel, commandLevel_initStmt]
  have hhash := hashed_hashTail p msg.length msg (initialise m k0 k1 (clearTraceValid e)) rfl (by simp)
  generalize commandsLevel p ((hashTail msg).map stmtCommand) (initialise m k0 k1 (clearTraceValid e)) = e' at hhash ⊢
  obtain ⟨hphase, herr, hblen, hout0, hout1⟩ := hhash
  refine ⟨hphase, hr, herr, by rw [hblen, BitVec.toNat_ofNat], readDigest_of_done hphase, ?_⟩
  rw [hout0, hout1]
  cases m
  · exact digestBytes_mode8 ..
  · exact digestBytes_mode16 ..

end Sys2Proof.Machine
end

section
/-! PROOFS. The family of spec/40_init.md: the whole effect of INIT (O16) and what the two modes share (O17), the first
trace event as a leak of the key (O45), and the registers right after the accept edge (O48). -/

namespace Sys2Proof.Machine

/-! ## The registers INIT writes (R63 to R66) -/

/-- In 8-byte mode the four registers are key and constants (R64). -/
theorem initRegs_mode8 (k0 k1 : Word) : initRegs false k0 k1 =
    { v0 := constC0 ^^^ k0, v1 := constC1 ^^^ k1, v2 := constC2 ^^^ k0, v3 := constC3 ^^^ k1 } := by
  simp [initRegs, xorV1, initConst]

/-- The two modes differ in v1 alone (R65). -/
theorem initRegs_mode16 (k0 k1 : Word) : initRegs true k0 k1 = xorV1 (initRegs false k0 k1) 0xEE := by
  rw [initRegs_mode8]; rfl

/-- INIT on a ready engine, in every PHASE. -/
theorem exec_init_ready {s : State} (hr : s.eng.ready = true) (m : Bool) : exec (initOf m) s =
    .next { s with eng := initialise m s.pins.key0 s.pins.key1 (clearTraceValid s.eng) } := by
  cases m <;> simp [initOf, exec, execInit8, execInit16, hr]

/-- Settles O16: `exec_init_ready` in each mode, with the registers of `initRegs_mode8`; those of 16-byte mode are the
definition's. -/
theorem initLoadsKeyAndConstants : Obligations.InitLoadsKeyAndConstants := by
  intro s hr
  constructor
  · have h8 := exec_init_ready hr false
    rw [initialise, initRegs_mode8] at h8
    exact h8
  · exact exec_init_ready hr true

/-- Settles O17: both next states come from `exec_init_ready`, and `initRegs_mode16` is their difference. -/
theorem initModesDifferOnlyInV1 : Obligations.InitModesDifferOnlyInV1 := by
  intro s hr
  refine ⟨_, _, exec_init_ready hr false, exec_init_ready hr true, ?_, initRegs_mode8 .., fun hk => ?_⟩
  · simp only [initialise, initRegs_mode16]; rfl
  · simp only [initialise_v, initRegs_mode16, initRegs_mode8, xorV1, hk]
    decide

/-! ## A SipRound can be undone (R82, R85) -/

/-- A rotation is undone by the rotation the other way. -/
theorem rotateRight_rotl (a : Word) {r : Nat} (h : r < 64) : (rotl a r).rotateRight r = a := by
  have hrotl : rotl a r = a.rotateLeft r := (BitVec.rotateLeft_eq_rotateLeftAux_of_lt h).symm
  rw [hrotl]
  ext i hi
  simp only [BitVec.getElem_rotateRight, BitVec.getElem_rotateLeft, Nat.mod_eq_of_lt h]
  by_cases hlow : i < 64 - r
  · have hnowrap : ¬ r + i < r := by omega
    rw [dif_pos hlow, dif_neg hnowrap]
    congr 1; omega
  · have hwrap : i - (64 - r) < r := by omega
    rw [dif_neg hlow, dif_pos hwrap]
    congr 1; omega

/-- The lines of `sipRound` undone from the last to the first. -/
def sipRoundInv (v : VRegs) : VRegs :=
  let v := { v with v2 := v.v2.rotateRight 32 }
  let v := { v with v1 := v.v1 ^^^ v.v2 }
  let v := { v with v1 := v.v1.rotateRight 17 }
  let v := { v with v2 := v.v2 - v.v1 }
  let v := { v with v3 := v.v3 ^^^ v.v0 }
  let v := { v with v3 := v.v3.rotateRight 21 }
  let v := { v with v0 := v.v0 - v.v3 }
  let v := { v with v3 := v.v3 ^^^ v.v2 }
  let v := { v with v3 := v.v3.rotateRight 16 }
  let v := { v with v2 := v.v2 - v.v3 }
  let v := { v with v0 := v.v0.rotateRight 32 }
  let v := { v with v1 := v.v1 ^^^ v.v0 }
  let v := { v with v1 := v.v1.rotateRight 13 }
  let v := { v with v0 := v.v0 - v.v1 }
  v

/-- Each line cancels against its inverse: rotation, XOR and addition. -/
theorem sipRoundInv_sipRound (v : VRegs) : sipRoundInv (sipRound v) = v := by
  simp [sipRound, sipRoundInv, rotateRight_rotl]

/-! ## The first trace event (R100) -/

/-- The two key words from the first event after INIT and the block `m`: the round and the XOR into v3 undone leave the
registers of INIT, of which v0 and v3 hold the key words in either mode. -/
def recoverKey (_mode16 : Bool) (m : Word) (event : TraceEvent) : Word × Word :=
  let v := xorV3 (sipRoundInv event.v) m
  (constC0 ^^^ v.v0, constC3 ^^^ v.v3)

theorem recoverKey_firstRound (m : Bool) (x k0 k1 : Word) (st : Stage) (i : BitVec 4) :
    recoverKey m x { stage := st, idx := i, v := sipRound (xorV3 (initRegs m k0 k1) x) } = (k0, k1) := by
  simp [recoverKey, sipRoundInv_sipRound, xorV3, initRegs, xorV1, BitVec.xor_assoc]

/-- A group of at least one round begins with the event of its first round (R98). -/
theorem groupEvents_cons (st : Stage) (n : Nat) (v : VRegs) :
    ∃ rest, groupEvents st (n + 1) v = { stage := st, idx := 0, v := sipRound v } :: rest := by
  simp [groupEvents, List.range_succ_eq_map, rounds]

theorem traceLog_init_absorb (p : Params) (m : Bool) (k0 k1 x : Word) (e : Engine) :
    (commandsLevel p [stmtCommand (initStmt m k0 k1), stmtCommand (.absorb x)] e).traceLog =
      e.traceLog ++ (if p.traceEn then groupEvents .c p.cRounds (xorV3 (initRegs m k0 k1) x) else []) := by
  rw [commandsLevel, commandLevel_initStmt, commandsLevel, commandLevel_absorbStmt x rfl, commandsLevel]
  exact absorb_traceLog ..

/-- Settles O45: the events of the ABSORB begin with its first round, from which `recoverKey` reads the key. -/
theorem firstTraceEventRevealsTheKey : Obligations.FirstTraceEventRevealsTheKey := by
  refine ⟨recoverKey, fun p m k0 k1 x e htrace hrounds => ?_⟩
  obtain ⟨n, hn⟩ := Nat.exists_eq_succ_of_ne_zero (Nat.one_le_iff_ne_zero.mp hrounds)
  obtain ⟨rest, hrest⟩ := groupEvents_cons .c n (xorV3 (initRegs m k0 k1) x)
  refine ⟨_, rest, ?_, recoverKey_firstRound m x k0 k1 .c 0⟩
  have hinit : (if m then stmtCommand (.init16 k0 k1) else stmtCommand (.init8 k0 k1)) =
      stmtCommand (initStmt m k0 k1) := by
    cases m <;> rfl
  rw [hinit, traceLog_init_absorb, if_pos htrace, hn, hrest]

/-! ## The accept edge of each decoded command (R106) -/

section Accept
variable {p : Params} {q : Pins} {e : Engine}

theorem acceptEdge_of_no_command (hv : q.cmdValid = false) : acceptEdge p q e = clearTraceValid e := by
  simp [acceptEdge, hv]

theorem acceptEdge_of_error {code : ErrCode} (hv : q.cmdValid = true) (hd : decodeAt q.cmd e.phase = .error code) :
    acceptEdge p q e = reject code (clearTraceValid e) := by
  simp [acceptEdge, hv, hd]

theorem acceptEdge_of_init {m : Bool} (hv : q.cmdValid = true) (hd : decodeAt q.cmd e.phase = .ok (initOf m)) :
    acceptEdge p q e = initialise m q.key0 q.key1 (clearTraceValid e) := by
  cases m <;> simp [acceptEdge, hv, hd, initOf]

theorem acceptEdge_of_absorb (hv : q.cmdValid = true) (hd : decodeAt q.cmd e.phase = .ok .absorb) :
    acceptEdge p q e = acceptBlock p q.din (clearTraceValid e) := by
  simp [acceptEdge, hv, hd]

theorem acceptEdge_of_final {t : BitVec 3} (hv : q.cmdValid = true) (hd : decodeAt q.cmd e.phase = .ok (.final t)) :
    acceptEdge p q e = acceptTail p t q.din (clearTraceValid e) := by
  simp [acceptEdge, hv, hd]

end Accept

/-- Settles O48: one case per outcome of the decoder, each the definition of that command's accept edge; a legal count
fits RC by `groupRounds_fits`. -/
theorem acceptEdgeRegisters : Obligations.AcceptEdgeRegisters := by
  intro p q e hrst hr
  simp only [clockEdge_of_ready hrst hr]
  refine ⟨acceptEdge_of_no_command, fun hv => ⟨fun code hd => ?_, fun hd => ?_, fun hd => ?_, fun hd => ?_,
    fun t hd => ?_⟩, fun hl => (groupRounds_fits hl .c).2⟩
  · exact acceptEdge_of_error hv hd
  · rw [acceptEdge_of_init (m := false) hv hd, initialise, initRegs_mode8]; rfl
  · exact acceptEdge_of_init (m := true) hv hd
  · rw [acceptEdge_of_absorb hv hd]
    exact ⟨rfl, statusWord_ready _, statusWord_blen _⟩
  · rw [acceptEdge_of_final hv hd]
    exact ⟨rfl, statusWord_ready _, statusWord_blen _⟩

end Sys2Proof.Machine
end

section
/-! PROOFS. The family of spec/41_compression.md: the whole effect of ABSORB (O19), its byte count (O20), and the trace
events of each command (O44). -/

namespace Sys2Proof.Machine

/-! ## ABSORB on a ready engine (R67, R91) -/

theorem exec_absorb_ready {s : State} (hr : s.eng.ready = true) : exec .absorb s =
    .next { s with eng := inSequence (absorb Config.hardware s.pins.din) (clearTraceValid s.eng) } := by
  simp [exec, execAbsorb, hr]

theorem exec_absorb_of_absorb {s : State} (hr : s.eng.ready = true) (hph : s.eng.phase = .absorb) : exec .absorb s =
    .next { s with eng := absorb Config.hardware s.pins.din (clearTraceValid s.eng) } := by
  rw [exec_absorb_ready hr, inSequence_of_absorb (e := clearTraceValid s.eng) hph]

theorem exec_absorb_of_ne {s : State} (hr : s.eng.ready = true) (hph : s.eng.phase ≠ .absorb) : exec .absorb s =
    .next { s with eng := reject .sequence (clearTraceValid s.eng) } := by
  rw [exec_absorb_ready hr, inSequence_of_ne (e := clearTraceValid s.eng) hph]

/-- Every register after an ABSORB on this hardware, which traces nothing. -/
theorem absorb_hardware (m : Word) (e : Engine) : absorb Config.hardware m e =
    { e with v := refMix Config.hardware e.v m, mreg := m, blen := blenBlock e.blen, fin := false } := by
  simp only [absorb, compress, runRounds_hardware, refMix]

/-- Settles O19: `absorb_hardware` gives every register, and `refMix` with two rounds is the XORs and SipRounds that the
statement writes out. -/
theorem absorbCompressesTheBlock : Obligations.AbsorbCompressesTheBlock := by
  intro s hr hph
  rw [exec_absorb_of_absorb hr hph, absorb_hardware]
  rfl

/-! ## The byte count (R17, R68) -/

theorem blenBlock_toNat (blen : BitVec 8) : (blenBlock blen).toNat = (blen.toNat + 8) % 256 :=
  BitVec.toNat_add blen 8

/-- A list of blocks in an open computation counts 8 bytes for each. -/
theorem blen_absorbs (p : Params) (blocks : List Word) (e : Engine) (hph : e.phase = .absorb) :
    (commandsLevel p (blocks.map fun m => stmtCommand (.absorb m)) e).blen =
      e.blen + BitVec.ofNat 8 (8 * blocks.length) := by
  induction blocks generalizing e with
  | nil => exact (BitVec.add_zero _).symm
  | cons m blocks ih =>
    rw [List.map_cons, commandsLevel, commandLevel_absorbStmt m hph, ih _ (by simp [hph]), absorb_blen,
      clearTraceValid_blen, blenBlock_add_ofNat, List.length_cons, Nat.mul_succ]

/-- Settles O20: `blenBlock` where the ABSORB is executed, `reject_blen` where it is rejected, and `blen_absorbs` from
the BLEN 0 that INIT leaves. -/
theorem absorbCountsEightBytes : Obligations.AbsorbCountsEightBytes := by
  refine ⟨fun s hr hph => ⟨_, exec_absorb_of_absorb hr hph, ?_⟩,
    fun s hr hph => ⟨_, exec_absorb_of_ne hr hph, reject_blen ..⟩, fun p m k0 k1 e blocks => ?_⟩
  · rw [absorb_blen, blenBlock_toNat, clearTraceValid_blen]
  · rw [← apply_ite stmtCommand, ← initStmt, commandsLevel, commandLevel_initStmt, blen_absorbs p blocks _ rfl,
      initialise_blen, BitVec.ofNat_eq_ofNat, BitVec.zero_add, BitVec.toNat_ofNat]

/-! ## The trace events of each command (R67, R71, R98) -/

/-- The events of a FINAL that finds MODE16 and the state registers `v` and mixes in the tail word `b`. -/
def finalEvents (p : Params) (mode16 : Bool) (b : Word) (v : VRegs) : List TraceEvent :=
  groupEvents .c p.cRounds (xorV3 v b) ++
  groupEvents .d1 p.dRounds (xorV2 (refMix p v b) (finalConst mode16)) ++
  (if mode16 then groupEvents .d2 p.dRounds (xorV1 (refFinal p mode16 (refMix p v b)) secondConst) else [])

/-- The events of a command when the trace is built: none for an INIT and for a rejected word. -/
def commandEvents (p : Params) (c : Command) (e : Engine) : List TraceEvent :=
  match decodeAt c.cmd e.phase with
  | .ok .absorb    => groupEvents .c p.cRounds (xorV3 e.v c.din)
  | .ok (.final t) => finalEvents p e.mode16 (tailWord e.blen t c.din) e.v
  | _              => []

theorem finalEvents_length (p : Params) (mode16 : Bool) (b : Word) (v : VRegs) :
    (finalEvents p mode16 b v).length = p.cRounds + (if mode16 then 2 * p.dRounds else p.dRounds) := by
  cases mode16 <;> simp [finalEvents, two_mul]

/-- One event per round, so one per busy edge of the command (R110). -/
theorem commandEvents_length (p : Params) (c : Command) (e : Engine) :
    (commandEvents p c e).length = latency p c e := by
  unfold commandEvents latency
  rcases decodeAt c.cmd e.phase with k | i
  · rfl
  cases i with
  | init8 => rfl
  | init16 => rfl
  | absorb => exact groupEvents_length ..
  | final t => exact finalEvents_length ..

theorem commandLevel_traceLog (p : Params) (c : Command) (e : Engine) :
    (commandLevel p c e).traceLog = e.traceLog ++ (if p.traceEn then commandEvents p c e else []) := by
  obtain ⟨k, hd, heq⟩ | ⟨m, hd, heq⟩ | ⟨-, hd, heq⟩ | ⟨t, -, hd, heq⟩ := commandLevel_cases p c e
  all_goals rw [heq, commandEvents, hd]
  · simp
  · cases m <;> simp
  · exact absorb_traceLog ..
  · exact finalise_traceLog ..

/-- Settles O44: the events are `commandEvents`, whose groups are the XORs and rounds that the statement writes out. -/
theorem traceEventsOfEachCommand : Obligations.TraceEventsOfEachCommand := by
  intro p c e
  refine ⟨_, commandLevel_traceLog p c e, ?_, fun htrace hd => ?_, fun htrace t hd => ?_⟩
  · rw [apply_ite List.length, commandEvents_length, List.length_nil]
  · rw [if_pos htrace, commandEvents, hd]
    rfl
  · rw [if_pos htrace, commandEvents, hd]
    rfl

end Sys2Proof.Machine
end

section
/-! PROOFS. The family of spec/42_finalization.md: the layout of the tail word (O21), and the whole effect of FINAL in
8-byte mode (O23) and in 16-byte mode (O24). -/

namespace Sys2Proof.Machine

/-! ## The tail word byte by byte (R70) -/

theorem blenTail_toNat (blen : BitVec 8) (t : BitVec 3) : (blenTail blen t).toNat = (blen.toNat + t.toNat) % 256 := by
  rw [blenTail, BitVec.toNat_add, BitVec.toNat_setWidth_of_le (by decide)]

/-- The mask of R70 with its shift in `Nat`, as the statement of the layout has it. -/
theorem tailMask_eq_natCast (t : BitVec 3) : tailMask t = ((1 <<< (8 * t.toNat) : Nat) : Word) - 1 := by
  revert t; decide

/-- Bits 55..0 are those of the masked data, bits 63..56 those of the length byte; a tail is too short to meet it. -/
theorem tailWord_getLsbD (blen : BitVec 8) (t : BitVec 3) (w : Word) {i : Nat} (hi : i < 64) :
    (tailWord blen t w).getLsbD i =
      if i < 56 then decide (i < 8 * t.toNat) && w.getLsbD i else (blenTail blen t).getLsbD (i - 56) := by
  have ht : t.toNat < 8 := t.isLt
  simp only [tailWord, BitVec.getLsbD_or, BitVec.getLsbD_and, BitVec.getLsbD_shiftLeft, BitVec.getLsbD_setWidth,
    tailMask_getLsbD t i hi, blenTail]
  split
  next hlow => simp [hlow, Bool.and_comm]
  next hhigh =>
    have hmask : ¬ i < 8 * t.toNat := by omega
    have hword : i - 56 < 64 := by omega
    simp [hhigh, hmask, hi, hword]

theorem byteOf_tailWord_length (blen : BitVec 8) (t : BitVec 3) (w : Word) :
    byteOf (tailWord blen t w) 7 = blenTail blen t := by
  refine BitVec.eq_of_getLsbD_eq fun j hj => ?_
  rw [byteOf, BitVec.getLsbD_extractLsb', tailWord_getLsbD blen t w (by omega), if_neg (by omega),
    Nat.add_sub_cancel_left, decide_eq_true hj, Bool.true_and]

/-- A byte below the length byte is that of the data when it lies below the tail count, else zero. -/
theorem byteOf_tailWord_of_le (blen : BitVec 8) (t : BitVec 3) (w : Word) {k : Nat} (hk : k ≤ 6) :
    byteOf (tailWord blen t w) k = if k < t.toNat then byteOf w k else 0 := by
  refine BitVec.eq_of_getLsbD_eq fun j hj => ?_
  have hlane : 8 * k + j < 8 * t.toNat ↔ k < t.toNat := by omega
  rw [byteOf, BitVec.getLsbD_extractLsb', tailWord_getLsbD blen t w (by omega), if_pos (by omega)]
  split <;> simp [byteOf, *]

/-- Settles O21: the formula is the definition's with the sum and the shift in `Nat`; byte 7 and the bytes below it are
`byteOf_tailWord_length` and `byteOf_tailWord_of_le`. -/
theorem tailWordLayout : Obligations.TailWordLayout := by
  intro blen t w
  refine ⟨?_, ?_, fun k hk => ?_, fun k hk hk6 => ?_⟩
  · have hlength : (blen + t.setWidth 8).setWidth 64 = BitVec.ofNat 64 ((blen.toNat + t.toNat) % 256) := by
      rw [← blenTail_toNat, BitVec.ofNat_toNat, blenTail]
    rw [tailWord, hlength, tailMask_eq_natCast]
  · rw [byteOf_tailWord_length, blenTail_toNat]
  · rw [byteOf_tailWord_of_le blen t w (by have := t.isLt; omega), if_pos hk]
  · rw [byteOf_tailWord_of_le blen t w hk6, if_neg (by omega)]

/-! ## FINAL on a ready engine (R71 to R77) -/

theorem exec_final_of_absorb {s : State} (hr : s.eng.ready = true) (hph : s.eng.phase = .absorb) (t : BitVec 3) :
    exec (.final t) s = .next { s with eng := finalise Config.hardware t s.pins.din (clearTraceValid s.eng) } := by
  simp [exec, execFinal, hr, inSequence_of_absorb (e := clearTraceValid s.eng) hph]

/-- Every register after a FINAL on this hardware, which traces nothing; the second pass runs in 16-byte mode only. -/
theorem finalise_hardware (t : BitVec 3) (w : Word) (e : Engine) :
    finalise Config.hardware t w e =
      let x := afterD1 Config.hardware t w e
      let y := rounds Config.hardware.dRounds (xorV1 x secondConst)
      { e with
        v := if e.mode16 then y else x, mreg := tailWord e.blen t w, blen := blenTail e.blen t, out0 := foldV x,
        out1 := if e.mode16 then foldV y else e.out1, phase := .done, fin := true } := by
  cases hm : e.mode16 <;>
    simp [finalise, firstPass, secondPass, compress, runRounds_hardware, refMix, refFinal, hm]

/-- Settles O23: `finalise_hardware` gives every register, and with MODE16 = 0 its `afterD1` is the XORs and rounds that
the statement writes out. -/
theorem finalProducesEightBytes : Obligations.FinalProducesEightBytes := by
  intro s t hr hph hm
  simp only [exec_final_of_absorb hr hph, finalise_hardware, afterD1, clearTraceValid_mode16, hm]
  rfl

/-- Settles O24: as O23, with MODE16 = 1 and so with the second pass. -/
theorem finalProducesSixteenBytes : Obligations.FinalProducesSixteenBytes := by
  intro s t hr hph hm
  simp only [exec_final_of_absorb hr hph, finalise_hardware, afterD1, clearTraceValid_mode16, hm]
  rfl

end Sys2Proof.Machine
end

section
/-! PROOFS. The family of spec/43_permutation.md: the rotation bit by bit (O4), SipRound as a dataflow (O5) and as a
bijection (O6). -/

namespace Sys2Proof.Machine

/-! ## The rotation bit by bit (R79) -/

/-- The right shift of `rotl` supplies the bits that wrap around. -/
theorem rotl_getLsbD_of_lt (a : Word) {r i : Nat} (hr : r < 64) (hi : i < r) :
    (rotl a r).getLsbD i = a.getLsbD (i + 64 - r) := by
  have hidx : 64 - r + i = i + 64 - r := by omega
  simp [rotl, hi, hidx]

/-- The left shift of `rotl` supplies the bits that do not wrap around. -/
theorem rotl_getLsbD_of_le (a : Word) {r i : Nat} (hri : r ≤ i) (hi : i < 64) :
    (rotl a r).getLsbD i = a.getLsbD (i - r) := by
  have hout : a.getLsbD (64 - r + i) = false := BitVec.getLsbD_of_ge a _ (by omega)
  rw [rotl, BitVec.getLsbD_or, BitVec.getLsbD_shiftLeft, BitVec.getLsbD_ushiftRight, hout]
  simp [hi, hri.not_gt]

/-- Settles O4: `(i + 64 - r) % 64` is `i + 64 - r` below `r` and `i - r` from `r` on, as the two lemmas have it. -/
theorem rotationMovesEachBit : Obligations.RotationMovesEachBit := by
  intro a r i _ hr hi
  by_cases hwrap : i < r
  · rw [rotl_getLsbD_of_lt a hr hwrap, Nat.mod_eq_of_lt (by omega)]
  · have hidx : (i + 64 - r) % 64 = i - r := by omega
    rw [rotl_getLsbD_of_le a (by omega) hi, hidx]

/-! ## SipRound (R82, R85) -/

/-- Settles O5: the registers that the 14 lines of `sipRound` leave are the dataflow's, by definition. -/
theorem sipRoundDataflow : Obligations.SipRoundDataflow :=
  ⟨fun _ _ _ _ => rfl, by decide⟩

/-- A rotation undoes the rotation the other way: `rotateRight_rotl` makes it injective, and words are finite. -/
theorem rotl_rotateRight (a : Word) {r : Nat} (h : r < 64) : rotl (a.rotateRight r) r = a := by
  have hleft : Function.LeftInverse (BitVec.rotateRight · r) (rotl · r) := fun b => rotateRight_rotl b h
  exact hleft.rightInverse_of_surjective (Finite.surjective_of_injective hleft.injective) a

/-- Each line cancels against its inverse on this side too. -/
theorem sipRound_sipRoundInv (v : VRegs) : sipRound (sipRoundInv v) = v := by
  simp [sipRound, sipRoundInv, rotl_rotateRight]

/-- Settles O6: `sipRoundInv` is a two-sided inverse of `sipRound`. -/
theorem sipRoundIsBijective : Obligations.SipRoundIsBijective :=
  Function.bijective_iff_has_inverse.mpr ⟨sipRoundInv, sipRoundInv_sipRound, sipRound_sipRoundInv⟩

end Sys2Proof.Machine
end

section
/-! PROOFS. The family of spec/60_exceptions.md: which words raise which error (O11), commands out of sequence (O25),
what a rejection does and leaves (O26), the trace as a pure observer (O43), and the idle engine (O3). -/

namespace Sys2Proof.Machine

/-! ## Which error a word raises (R57, R88 to R92) -/

/-- OP is INIT, ABSORB or FINAL (R88). -/
abbrev knownOp (f : CmdFields) : Prop := f.op = 1 ∨ f.op = 2 ∨ f.op = 3

/-- A field that must be 0 is not (R89). -/
abbrev dirtyFields (f : CmdFields) : Prop :=
  f.rsvd ≠ 0 ∨ ((f.op = 1 ∨ f.op = 2) ∧ f.t ≠ 0) ∨ ((f.op = 2 ∨ f.op = 3) ∧ f.outlen ≠ 0)

/-- An INIT whose OUTLEN is no digest size (R90). -/
abbrev badOutlen (f : CmdFields) : Prop := f.op = 1 ∧ f.outlen ≠ 8 ∧ f.outlen ≠ 16

/-- The first error of a word in the order of R92, which puts the check of PHASE last. -/
def firstError (f : CmdFields) (ph : Phase) : Option ErrCode :=
  if ¬ knownOp f then some .illegalOpcode
  else if dirtyFields f then some .reservedField
  else if badOutlen f then some .invalidOutlen
  else if f.op ≠ 1 ∧ ph ≠ .absorb then some .sequence
  else none

section Decode
variable {f : CmdFields} {w : CmdWord} {ph : Phase}

theorem decodeFields_of_unknown (hk : ¬ knownOp f) : decodeFields f = .error .illegalOpcode := if_pos hk

/-- Whichever OP is known, the checks of RSVD and of its own fields meet the field that is not 0. -/
theorem decodeFields_of_dirty (hk : knownOp f) (hd : dirtyFields f) : decodeFields f = .error .reservedField := by
  rw [decodeFields, if_neg (not_not.mpr hk)]
  by_cases hr : f.rsvd = 0
  · obtain hop | hop | hop := hk <;> simp_all [dirtyFields, ← imp_iff_not_or]
  · exact if_pos hr

theorem decodeFields_of_badOutlen (hd : ¬ dirtyFields f) (hb : badOutlen f) :
    decodeFields f = .error .invalidOutlen := by
  obtain ⟨hop, hlen⟩ := hb
  simp_all [decodeFields, dirtyFields]

/-- A word that passes every check of its fields is a command, which needs an open computation unless its OP is INIT. -/
theorem decodeFields_of_clean (hk : knownOp f) (hd : ¬ dirtyFields f) (hb : ¬ badOutlen f) :
    ∃ i, decodeFields f = .ok i ∧ (needsOpen i = true ↔ f.op ≠ 1) := by
  obtain hop | hop | hop := hk
  · by_cases h16 : f.outlen = 16
    · exact ⟨.init16, by simp_all [decodeFields, dirtyFields], by simp [needsOpen, hop]⟩
    · exact ⟨.init8, by simp_all [decodeFields, dirtyFields, badOutlen], by simp [needsOpen, hop]⟩
  · exact ⟨.absorb, by simp_all [decodeFields, dirtyFields], by simp [needsOpen, hop]⟩
  · exact ⟨.final f.t, by simp_all [decodeFields, dirtyFields], by simp [needsOpen, hop]⟩

theorem decodeAt_of_error {k : ErrCode} (h : decode w = .error k) : decodeAt w ph = .error k := by
  simp only [decodeAt, h]

/-- SEQUENCE is the last check (R57, R91). -/
theorem decodeAt_of_ok {i : Instr} (h : decode w = .ok i) :
    decodeAt w ph = if needsOpen i = true ∧ ph ≠ .absorb then .error .sequence else .ok i := by
  simp only [decodeAt, h]

/-- The checks of R57 raise the first error in the order of R92. -/
theorem decodeAt_error_iff {k : ErrCode} : decodeAt w ph = .error k ↔ firstError (fieldsOf w) ph = some k := by
  by_cases hk : knownOp (fieldsOf w)
  case neg => simp [firstError, hk, decodeAt_of_error (decodeFields_of_unknown hk)]
  unfold firstError
  split_ifs with hd hb hs
  · simp [decodeAt_of_error (decodeFields_of_dirty hk hd)]
  · simp [decodeAt_of_error (decodeFields_of_badOutlen hd hb)]
  all_goals
    obtain ⟨i, hi, hopen⟩ := decodeFields_of_clean hk hd hb
    rw [← hopen] at hs
    simp [decodeAt_of_ok hi, hs]

/-- Each code is the first error exactly when its own check fails and none before it; no word raises NONE. -/
theorem firstError_eq_some_iff (f : CmdFields) (ph : Phase) :
    (firstError f ph = some .illegalOpcode ↔ ¬ knownOp f) ∧
    (firstError f ph = some .reservedField ↔ knownOp f ∧ dirtyFields f) ∧
    (firstError f ph = some .invalidOutlen ↔ knownOp f ∧ ¬ dirtyFields f ∧ badOutlen f) ∧
    (firstError f ph = some .sequence ↔
      knownOp f ∧ ¬ dirtyFields f ∧ ¬ badOutlen f ∧ f.op ≠ 1 ∧ ph ≠ .absorb) ∧
    firstError f ph ≠ some .noError := by
  unfold firstError
  split_ifs <;> simp_all [badOutlen]

end Decode

/-- Settles O11: the decoder raises `firstError`, whose chain of checks says when each code is raised. -/
theorem decodeErrorPriority : Obligations.DecodeErrorPriority := by
  intro w op t outlen rsvd known dirty badLen ph
  simp only [ne_eq, decodeAt_error_iff]
  exact firstError_eq_some_iff (fieldsOf w) ph

/-! ## Commands out of sequence (R91) -/

/-- ABSORB and FINAL on a ready engine with no computation open. -/
theorem exec_out_of_sequence {s : State} {i : Instr} (hr : s.eng.ready = true) (hph : s.eng.phase ≠ .absorb)
    (hopen : needsOpen i = true) : exec i s = .next { s with eng := reject .sequence (clearTraceValid s.eng) } := by
  cases i with
  | init8 | init16 => cases hopen
  | absorb => exact exec_absorb_of_ne hr hph
  | final t => simp [exec, execFinal, hr, inSequence_of_ne (e := clearTraceValid s.eng) hph]

theorem decodeAt_out_of_sequence {i : Instr} {ph : Phase} (hph : ph ≠ .absorb) (hopen : needsOpen i = true) :
    decodeAt (encode i) ph = .error .sequence := by
  rw [decodeAt_of_ok (decode_encode i), if_pos ⟨hopen, hph⟩]

/-- Settles O25: `reject` is the effect the statement writes out; that INIT is never out of sequence is O11's clause. -/
theorem outOfOrderCommandsRaiseSequence : Obligations.OutOfOrderCommandsRaiseSequence := by
  refine ⟨fun s i hr hph hi => ?_, fun s i hr hi => ?_, fun w ph hop hd => ?_⟩
  · have hclosed : s.eng.phase ≠ .absorb := by obtain h | h := hph <;> simp [h]
    have hopen : needsOpen i = true := by obtain rfl | ⟨t, rfl⟩ := hi <;> rfl
    exact exec_out_of_sequence hr hclosed hopen
  · obtain ⟨m, rfl⟩ : ∃ m, i = initOf m := eq_initOf_of_needsOpen (by obtain rfl | rfl := hi <;> rfl)
    exact ⟨_, exec_init_ready hr m, rfl, rfl⟩
  · obtain ⟨-, -, -, hsequence, -⟩ := decodeErrorPriority w ph
    obtain ⟨-, -, -, hne, -⟩ := hsequence.mp hd
    exact hne hop

/-! ## What a rejection does and leaves (R93) -/

theorem commandLevel_of_error {p : Params} {c : Command} {e : Engine} {code : ErrCode}
    (h : decodeAt c.cmd e.phase = .error code) : commandLevel p c e = reject code (clearTraceValid e) := by
  simp [commandLevel, h]

/-- Only an INIT leaves PHASE IDLE: a word that is no INIT is rejected there. -/
theorem commandLevel_keeps_idle (p : Params) {c : Command} {e : Engine} (hph : e.phase = .idle)
    (hc : ¬ isInitWord c.cmd) : (commandLevel p c e).phase = .idle := by
  obtain ⟨k, -, heq⟩ | ⟨m, hd, -⟩ | ⟨hopen, -⟩ | ⟨t, hopen, -⟩ := commandLevel_cases p c e
  · rw [heq, reject_phase]
  · exact absurd ((isInitWord_iff c.cmd e.phase).mpr ⟨m, hd⟩) hc
  · simp [hph] at hopen
  · simp [hph] at hopen

theorem commandsLevel_keeps_idle (p : Params) {later : List Command} (hl : ∀ l ∈ later, ¬ isInitWord l.cmd)
    {e : Engine} (hph : e.phase = .idle) : (commandsLevel p later e).phase = .idle := by
  induction later generalizing e with
  | nil => exact hph
  | cons c later ih =>
    rw [List.forall_mem_cons] at hl
    obtain ⟨hc, hl⟩ := hl
    exact ih hl (commandLevel_keeps_idle p hph hc)

/-- Settles O26: the step and the accept edge are both `reject`, and the PHASE IDLE it leaves stays. -/
theorem rejectionChangesOnlyErrAndPhase : Obligations.RejectionChangesOnlyErrAndPhase := by
  refine ⟨fun s c rest code hh hr hd => ?_, fun p q e code hr hrst hv hd => ?_, fun p c e code hd later hl => ?_⟩
  · have hstep := step_issue_ready s c rest hh hr
    rw [commandLevel_of_error hd] at hstep
    exact ⟨_, hstep, rfl, rfl, rfl, rfl, rfl, rfl, rfl, rfl, rfl, rfl, rfl, rfl, hr, rfl, rfl, rfl⟩
  · rw [clockEdge_of_ready hrst hr, acceptEdge_of_error hv hd]
    rfl
  · have hrejected : (commandLevel p c e).phase = .idle := by rw [commandLevel_of_error hd, reject_phase]
    have hidle : (commandsLevel p (c :: later) e).phase = .idle := commandsLevel_keeps_idle p hl hrejected
    have hclosed : (commandsLevel p (c :: later) e).phase ≠ .absorb := by simp [hidle]
    exact ⟨hidle, by simp [digestValid, hidle], decodeAt_out_of_sequence hclosed rfl,
      fun n => decodeAt_out_of_sequence hclosed rfl⟩

/-! ## Tracing does not interfere (R99)

Forgetting the trace turns each edge, for either value of TRACE_EN, into the edge of the engine built without it. -/

/-- The same parameters without the trace port. -/
def withoutTrace (p : Params) : Params := { p with traceEn := false }

theorem untraced_acceptEdge (p : Params) (q : Pins) (e : Engine) :
    untraced (acceptEdge p q e) = acceptEdge (withoutTrace p) q (untraced e) := by
  obtain ⟨hv, heq⟩ | ⟨hv, ⟨k, hd, heq⟩ | ⟨m, hd, heq⟩ | ⟨-, hd, heq⟩ | ⟨t, -, hd, heq⟩⟩ := acceptEdge_cases p q e
  · rw [heq, acceptEdge_of_no_command hv]; rfl
  · rw [heq, acceptEdge_of_error (e := untraced e) hv hd]; rfl
  · rw [heq, acceptEdge_of_init (e := untraced e) hv hd]; rfl
  · rw [heq, acceptEdge_of_absorb (e := untraced e) hv hd]; rfl
  · rw [heq, acceptEdge_of_final (e := untraced e) hv hd]; rfl

theorem untraced_emitTrace (p : Params) (ev : TraceEvent) (e : Engine) :
    untraced (emitTrace p ev e) = untraced e := by
  unfold emitTrace
  split <;> rfl

/-- With TRACE_EN = 0 nothing is recorded (R24). -/
theorem emitTrace_withoutTrace (p : Params) (ev : TraceEvent) (e : Engine) : emitTrace (withoutTrace p) ev e = e := rfl

theorem untraced_endOfGroup (p : Params) (s : VRegs) (e : Engine) :
    untraced (endOfGroup p s e) = endOfGroup (withoutTrace p) s (untraced e) := by
  have hstage : (untraced e).stage = e.stage := rfl
  have hfin : (untraced e).fin = e.fin := rfl
  have hmode : (untraced e).mode16 = e.mode16 := rfl
  simp only [endOfGroup, hstage, hfin, hmode]
  split
  next => rfl
  next => split <;> rfl
  next => split <;> rfl
  next => rfl

/-- The round edge reads the trace in neither of its cases, a round inside its group and the last one (R107, R108). -/
theorem untraced_roundEdge (p : Params) (e : Engine) :
    untraced (roundEdge p e) = roundEdge (withoutTrace p) (untraced e) := by
  by_cases hrc : 1 < e.rc
  · have hcount (e' : Engine) : untraced { e' with v := sipRound e.v, rc := e.rc - 1 } =
        { untraced e' with v := sipRound e.v, rc := e.rc - 1 } := rfl
    rw [roundEdge_more p e hrc, hcount, untraced_emitTrace, roundEdge_more (withoutTrace p) (untraced e) hrc,
      emitTrace_withoutTrace]
    rfl
  · rw [roundEdge_last p e hrc, untraced_endOfGroup, untraced_emitTrace,
      roundEdge_last (withoutTrace p) (untraced e) hrc, emitTrace_withoutTrace]
    rfl

theorem untraced_clockEdge (p : Params) (q : Pins) (e : Engine) :
    untraced (clockEdge p q e) = clockEdge (withoutTrace p) q (untraced e) := by
  cases hrst : q.rst
  case true => rw [clockEdge_of_rst hrst, clockEdge_of_rst hrst]; rfl
  cases hr : e.ready
  · rw [clockEdge_of_busy hrst hr, clockEdge_of_busy (e := untraced e) hrst hr, untraced_roundEdge]
  · rw [clockEdge_of_ready hrst hr, clockEdge_of_ready (e := untraced e) hrst hr, untraced_acceptEdge]

theorem untraced_clockEdges (p : Params) (pins : List Pins) (e : Engine) :
    untraced (clockEdges p pins e) = clockEdges (withoutTrace p) pins (untraced e) := by
  induction pins generalizing e with
  | nil => rfl
  | cons q rest ih => rw [clockEdges, ih, untraced_clockEdge, clockEdges]

/-- The ports other than the trace ports do not read the trace (R33, R99). -/
theorem plainOutputs_untraced (e : Engine) : plainOutputs (untraced e) = plainOutputs e := rfl

/-- Settles O43: without their traces both runs are the run of the engine built without the trace port. -/
theorem tracingDoesNotInterfere : Obligations.TracingDoesNotInterfere := by
  intro c d pins e e' h off on
  have hsame : untraced off = untraced on := by
    rw [untraced_clockEdges, untraced_clockEdges, h]
    rfl
  refine ⟨hsame, ?_⟩
  rw [← plainOutputs_untraced off, hsame, plainOutputs_untraced]

/-! ## The idle engine (R102, R116) -/

/-- Settles O3: with no move the edge is an accept edge on which no command is presented. -/
theorem idleEngineHoldsItsState : Obligations.IdleEngineHoldsItsState := by
  intro s hh hr
  refine ⟨_, step_of_no_move hh, ?_, hh⟩
  rw [clockState_eng, clockEdge_of_ready (release_rst _) hr, acceptEdge_of_no_command (release_cmdValid _)]
  rfl

end Sys2Proof.Machine
end

section
/-! PROOFS. The family of spec/70_reset_and_hazards.md: the reset edge (O2), the end of a round group (O39), when READY
falls and rises (O40), and the refinement of the command level by the cycle level (O41). -/

namespace Sys2Proof.Machine

/-! ## The reset edge (R103) -/

theorem clockEdges_of_rst (p : Params) {pins : List Pins} (hne : pins ≠ []) (h : ∀ q ∈ pins, q.rst = true)
    (e : Engine) : clockEdges p pins e = Engine.reset := by
  induction pins generalizing e with
  | nil => exact absurd rfl hne
  | cons q rest ih =>
    obtain ⟨hq, hrest⟩ := List.forall_mem_cons.mp h
    rw [clockEdges, clockEdge_of_rst hq]
    cases rest with
    | nil => rfl
    | cons q' rest' => exact ih (by simp) hrest _

/-- Settles O2: one edge by the definition of an edge, a sequence by induction on it. -/
theorem resetEdgeFromAnyState : Obligations.ResetEdgeFromAnyState :=
  ⟨fun _ _ _ => clockEdge_of_rst, fun p _ e hne h => clockEdges_of_rst p hne h e⟩

/-! ## The end of each group (R108) -/

section EndOfGroup
variable {p : Params} {s : VRegs} {e : Engine}

theorem endOfGroup_of_absorb (hs : e.stage = .c) (hf : e.fin = false) :
    endOfGroup p s e = { e with v := xorV0 s e.mreg, stage := .idle, rc := 0 } := by
  simp [endOfGroup, hs, hf]

theorem endOfGroup_of_final (hs : e.stage = .c) (hf : e.fin = true) :
    endOfGroup p s e = { e with
      v := xorV2 (xorV0 s e.mreg) (finalConst e.mode16), stage := .d1, rc := BitVec.ofNat 4 p.dRounds } := by
  simp [endOfGroup, hs, hf]

theorem endOfGroup_of_d1_mode16 (hs : e.stage = .d1) (hm : e.mode16 = true) :
    endOfGroup p s e = { e with
      v := xorV1 s secondConst, out0 := foldV s, stage := .d2, rc := BitVec.ofNat 4 p.dRounds } := by
  simp [endOfGroup, hs, hm]

theorem endOfGroup_of_d1_mode8 (hs : e.stage = .d1) (hm : e.mode16 = false) :
    endOfGroup p s e = { e with v := s, out0 := foldV s, stage := .idle, rc := 0, phase := .done } := by
  simp [endOfGroup, hs, hm]

theorem endOfGroup_of_d2 (hs : e.stage = .d2) :
    endOfGroup p s e = { e with v := s, out1 := foldV s, stage := .idle, rc := 0, phase := .done } := by
  simp [endOfGroup, hs]

/-- The end of a group writes v0..v3 and RC whatever they hold. -/
theorem endOfGroup_overwrites (hb : e.stage ≠ .idle) (v : VRegs) (r : BitVec 4) :
    endOfGroup p s { e with v := v, rc := r } = endOfGroup p s e := by
  unfold endOfGroup
  dsimp only
  split
  next hs => exact absurd hs hb
  next => split <;> rfl
  next => split <;> rfl
  next => rfl

/-- The round edge before the last of its group, with the trace left aside. -/
theorem untraced_roundEdge_more (hrc : 1 < e.rc) :
    untraced (roundEdge p e) = untraced { e with v := sipRound e.v, rc := e.rc - 1 } := by
  rw [untraced_roundEdge, roundEdge_more (withoutTrace p) (untraced e) hrc, emitTrace_withoutTrace]
  rfl

/-- The last round edge of a group, with the trace left aside. -/
theorem untraced_roundEdge_last (hrc : ¬ 1 < e.rc) :
    untraced (roundEdge p e) = untraced (endOfGroup p (sipRound e.v) e) := by
  rw [roundEdge_last p e hrc, untraced_endOfGroup, untraced_emitTrace, untraced_endOfGroup]

end EndOfGroup

/-- Settles O39: the round edge with its trace left aside, and the end of each group as the `endOfGroup_of` lemmas have
it. -/
theorem lastRoundFoldsTheClosingXor : Obligations.LastRoundFoldsTheClosingXor := by
  intro p q e hrst hb s after
  have hafter : after = untraced (roundEdge p e) := by
    rw [← clockEdge_of_busy hrst ((busy_iff e).mpr hb)]
  have hlast (hrc : e.rc = 1) : after = untraced (endOfGroup p s e) :=
    hafter.trans (untraced_roundEdge_last (by simp [hrc]))
  refine ⟨fun hrc => hafter.trans (untraced_roundEdge_more hrc), fun hrc hs hf => ?_, fun hrc hs hf => ?_,
    fun hrc hs hm => ?_, fun hrc hs hm => ?_, fun hrc hs => ?_⟩
  all_goals rw [hlast hrc]
  · rw [endOfGroup_of_final hs hf]; rfl
  · rw [endOfGroup_of_absorb hs hf]; rfl
  · rw [endOfGroup_of_d1_mode16 hs hm]; rfl
  · rw [endOfGroup_of_d1_mode8 hs hm]; rfl
  · rw [endOfGroup_of_d2 hs]; rfl

/-! ## When READY falls and rises (R109) -/

/-- The end of this group ends the command: C of an ABSORB, D1 in 8-byte mode, and D2. -/
abbrev lastGroup (e : Engine) : Prop :=
  (e.stage = .c ∧ e.fin = false) ∨ (e.stage = .d1 ∧ e.mode16 = false) ∨ e.stage = .d2

section Ready
variable {p : Params} {e : Engine}

theorem endOfGroup_ready_iff (hb : e.stage ≠ .idle) (s : VRegs) :
    (endOfGroup p s e).ready = true ↔ lastGroup e := by
  rw [ready_iff]
  cases hs : e.stage with
  | idle => exact absurd hs hb
  | c =>
    cases hf : e.fin
    · simp [endOfGroup_of_absorb hs hf, lastGroup, hs, hf]
    · simp [endOfGroup_of_final hs hf, lastGroup, hs, hf]
  | d1 =>
    cases hm : e.mode16
    · simp [endOfGroup_of_d1_mode8 hs hm, lastGroup, hs, hm]
    · simp [endOfGroup_of_d1_mode16 hs hm, lastGroup, hs, hm]
  | d2 => simp [endOfGroup_of_d2 hs, lastGroup, hs]

/-- The group that ends a FINAL leaves PHASE DONE. -/
theorem endOfGroup_done (hf : e.fin = true) (hg : lastGroup e) (s : VRegs) : (endOfGroup p s e).phase = .done := by
  obtain ⟨-, hf'⟩ | ⟨hs, hm⟩ | hs := hg
  · simp [hf] at hf'
  · rw [endOfGroup_of_d1_mode8 hs hm]
  · rw [endOfGroup_of_d2 hs]

theorem lastGroup_emitTrace (ev : TraceEvent) : lastGroup (emitTrace p ev e) ↔ lastGroup e := by
  simp [lastGroup]

/-- READY rises at the last round edge of the command and at no other round edge. -/
theorem roundEdge_ready_iff (hb : e.stage ≠ .idle) (hpos : 1 ≤ e.rc.toNat) :
    (roundEdge p e).ready = true ↔ e.rc = 1 ∧ lastGroup e := by
  by_cases hrc : 1 < e.rc
  · have hne : e.rc ≠ 1 := by bv_omega
    have hbusy : (roundEdge p e).ready = false := by simp [roundEdge_more p e hrc, Engine.ready, hb]
    exact iff_of_false (by simp [hbusy]) fun h => hne h.1
  · have hone : e.rc = 1 := by bv_omega
    rw [roundEdge_last p e hrc, endOfGroup_ready_iff (by simpa using hb), lastGroup_emitTrace]
    simp [hone]

/-- In a FINAL READY rises exactly when PHASE becomes DONE. -/
theorem roundEdge_ready_iff_done (hb : e.stage ≠ .idle) (hpos : 1 ≤ e.rc.toNat) (hph : e.phase = .absorb)
    (hf : e.fin = true) : (roundEdge p e).ready = true ↔ (roundEdge p e).phase = .done := by
  refine ⟨fun hr => ?_, fun hdone => (roundEdge_done p e (by simp [hph]) hdone).2⟩
  obtain ⟨hone, hg⟩ := (roundEdge_ready_iff hb hpos).mp hr
  rw [roundEdge_last p e (by simp [hone])]
  exact endOfGroup_done (by simpa using hf) ((lastGroup_emitTrace _).mpr hg) _

/-- An ABSORB or a FINAL starts a group at its accept edge, and an INIT is over with it (R106). -/
theorem acceptEdge_ready_of_ok {q : Pins} {i : Instr} (hr : e.ready = true) (hv : q.cmdValid = true)
    (hd : decodeAt q.cmd e.phase = .ok i) : (acceptEdge p q e).ready = !needsOpen i := by
  cases i with
  | init8 => rw [acceptEdge_of_init (m := false) hv hd]; exact hr
  | init16 => rw [acceptEdge_of_init (m := true) hv hd]; exact hr
  | absorb => rw [acceptEdge_of_absorb hv hd]; rfl
  | final t => rw [acceptEdge_of_final hv hd]; rfl

theorem acceptEdge_ready_of_error {q : Pins} {code : ErrCode} (hr : e.ready = true) (hv : q.cmdValid = true)
    (hd : decodeAt q.cmd e.phase = .error code) : (acceptEdge p q e).ready = true := by
  rw [acceptEdge_of_error hv hd]
  exact hr

end Ready

/-- Settles O40: the invariant gives a busy engine RC of at least 1 and PHASE ABSORB; the edge is then the accept edge
or the round edge. -/
theorem readyFallsAndRisesWithTheRounds : Obligations.ReadyFallsAndRisesWithTheRounds := by
  intro p e q _ hinv hrst e'
  obtain ⟨⟨-, hbusy, -, -⟩, -⟩ := hinv
  have haccept (hr : e.ready = true) : e' = acceptEdge p q e := clockEdge_of_ready hrst hr
  have hround (hb : e.ready = false) : e' = roundEdge p e := clockEdge_of_busy hrst hb
  refine ⟨ready_iff e, fun hdone => ?_, fun hr hv i hd => ?_, fun hr hv code hd => ?_, fun hb => ?_, fun hb hf => ?_⟩
  · by_contra hr
    obtain ⟨-, -, hph⟩ := hbusy (fun hs => hr ((ready_iff e).mpr hs))
    simp [digestValid, hph] at hdone
  · rw [haccept hr, acceptEdge_ready_of_ok hr hv hd]
  · rw [haccept hr, acceptEdge_ready_of_error hr hv hd]
  · have hs := (busy_iff e).mp hb
    obtain ⟨hpos, -, -⟩ := hbusy hs
    rw [hround hb]
    exact roundEdge_ready_iff hs hpos
  · have hs := (busy_iff e).mp hb
    obtain ⟨hpos, -, hph⟩ := hbusy hs
    rw [hround hb]
    exact roundEdge_ready_iff_done hs hpos hph hf

/-! ## Runs of round edges (R107, R111) -/

/-- `n` round edges lead from the first engine to the second, and READY is 0 before each of them. -/
inductive BusyRun (p : Params) : Nat → Engine → Engine → Prop
  | refl (e : Engine) : BusyRun p 0 e e
  | round {n : Nat} {e e' : Engine} (hb : e.ready = false) (h : BusyRun p n (roundEdge p e) e') :
      BusyRun p (n + 1) e e'

section BusyRun
variable {p : Params} {n : Nat} {e e' : Engine}

theorem BusyRun.trans {m : Nat} {e'' : Engine} (h : BusyRun p n e e') (h' : BusyRun p m e' e'') :
    BusyRun p (n + m) e e'' := by
  induction h with
  | refl e => rwa [Nat.zero_add]
  | round hb _ ih => rw [Nat.add_right_comm]; exact .round hb (ih h')

theorem BusyRun.snoc (h : BusyRun p n e e') (hb : e'.ready = false) : BusyRun p (n + 1) e (roundEdge p e') :=
  h.trans (.round hb (.refl _))

/-- The ports play no part in a run but for `rst` = 0 (R35, R111). -/
theorem BusyRun.clockEdges_eq (h : BusyRun p n e e') {pins : List Pins} (hrst : ∀ q ∈ pins, q.rst = false)
    (hn : pins.length = n) : clockEdges p pins e = e' := by
  induction h generalizing pins with
  | refl e => rw [List.length_eq_zero_iff.mp hn, clockEdges]
  | round hb _ ih =>
    obtain ⟨q, rest, rfl⟩ := List.exists_cons_of_length_eq_add_one hn
    obtain ⟨hq, hrest⟩ := List.forall_mem_cons.mp hrst
    rw [clockEdges, clockEdge_of_busy hq hb]
    exact ih hrest (Nat.succ.inj hn)

theorem BusyRun.busy_before (h : BusyRun p n e e') {pins : List Pins} (hrst : ∀ q ∈ pins, q.rst = false)
    (hn : pins.length < n) : (clockEdges p pins e).ready = false := by
  induction h generalizing pins with
  | refl e => simp at hn
  | round hb _ ih =>
    cases pins with
    | nil => exact hb
    | cons q rest =>
      obtain ⟨hq, hrest⟩ := List.forall_mem_cons.mp hrst
      rw [clockEdges, clockEdge_of_busy hq hb]
      exact ih hrest (Nat.lt_of_succ_lt_succ hn)

end BusyRun

/-! ## One group, round by round, against the group of the command level (R83, R98, R107) -/

/-- The engine with the group `st` about to start. -/
def arm (p : Params) (st : Stage) (e : Engine) : Engine :=
  { e with stage := st, rc := BitVec.ofNat 4 (groupRounds p st) }

/-- The engine with no group in progress. -/
def disarm (e : Engine) : Engine := { e with stage := .idle, rc := 0 }

/-- The engine `k` rounds into the group `st`. -/
def midGroup (p : Params) (st : Stage) (k : Nat) (e : Engine) : Engine :=
  { runRounds p st k e with stage := st, rc := BitVec.ofNat 4 (groupRounds p st) - BitVec.ofNat 4 k }

theorem disarm_of_idle {e : Engine} (hs : e.stage = .idle) (hrc : e.rc = 0) : disarm e = e := by
  rw [disarm, ← hs, ← hrc]

theorem midGroup_zero (p : Params) (st : Stage) (e : Engine) : midGroup p st 0 e = arm p st e := by
  simp [midGroup, arm, runRounds]

section Group
variable {p : Params} {st : Stage}

theorem midGroup_ready (hst : st ≠ .idle) (k : Nat) (e : Engine) : (midGroup p st k e).ready = false :=
  (busy_iff _).mpr hst

/-- RC counts the rounds that are left. -/
theorem midGroup_rc_toNat (hl : p.legal) {k : Nat} (hk : k < groupRounds p st) (e : Engine) :
    (midGroup p st k e).rc.toNat = groupRounds p st - k := by
  obtain ⟨-, hfits⟩ := groupRounds_fits hl st
  rw [BitVec.toNat_ofNat] at hfits
  simp only [midGroup, BitVec.toNat_sub, BitVec.toNat_ofNat]
  omega

/-- The index of a round counts up as RC counts down. -/
theorem roundEvent_midGroup (k : Nat) (e : Engine) : roundEvent p (midGroup p st k e) =
    { stage := st, idx := BitVec.ofNat 4 k, v := sipRound (runRounds p st k e).v } := by
  simp [midGroup, sub_sub_cancel]

/-- A round edge inside the group is one more round of the command level, trace event included. -/
theorem roundEdge_midGroup (hl : p.legal) {k : Nat} (hk : k + 1 < groupRounds p st) (e : Engine) :
    roundEdge p (midGroup p st k e) = midGroup p st (k + 1) e := by
  have hrc := midGroup_rc_toNat hl (Nat.lt_of_succ_lt hk) e
  have hcount : (midGroup p st k e).rc - 1 = (midGroup p st (k + 1) e).rc := by
    simp only [midGroup, BitVec.ofNat_add]
    exact sub_sub _ _ _
  rw [roundEdge_more p _ (by bv_omega), roundEvent_midGroup, hcount]
  simp only [midGroup, runRounds, oneRound, emitTrace]
  split <;> rfl

/-- The last round edge of the group ends it on the registers after all its rounds. -/
theorem roundEdge_midGroup_last (hl : p.legal) (hst : st ≠ .idle) {k : Nat} (hk : k + 1 = groupRounds p st)
    (e : Engine) : roundEdge p (midGroup p st k e) =
      endOfGroup p (runRounds p st (k + 1) e).v (arm p st (runRounds p st (k + 1) e)) := by
  have hrc := midGroup_rc_toNat (st := st) hl (k := k) (by omega) e
  have hv : sipRound (midGroup p st k e).v = (runRounds p st (k + 1) e).v := by
    simp [midGroup, rounds]
  rw [roundEdge_last p _ (by bv_omega), roundEvent_midGroup, hv,
    ← endOfGroup_overwrites (e := arm p st (runRounds p st (k + 1) e)) hst (runRounds p st k e).v
      (midGroup p st k e).rc]
  congr 1
  simp only [midGroup, arm, runRounds, oneRound, emitTrace]
  split <;> rfl

theorem busyRun_midGroup (hl : p.legal) (hst : st ≠ .idle) (e : Engine) {k : Nat} (hk : k < groupRounds p st) :
    BusyRun p k (arm p st e) (midGroup p st k e) := by
  induction k with
  | zero => rw [midGroup_zero]; exact .refl _
  | succ k ih =>
    rw [← roundEdge_midGroup hl hk]
    exact (ih (Nat.lt_of_succ_lt hk)).snoc (midGroup_ready hst k e)

/-- A whole group at the cycle level: the rounds of the command level, then the end of the group. -/
theorem busyRun_group (hl : p.legal) (hst : st ≠ .idle) (e : Engine) :
    BusyRun p (groupRounds p st) (arm p st e) (endOfGroup p (runRounds p st (groupRounds p st) e).v
      (arm p st (runRounds p st (groupRounds p st) e))) := by
  obtain ⟨k, hk⟩ := Nat.exists_eq_add_one.mpr (groupRounds_fits hl st).1
  rw [hk, ← roundEdge_midGroup_last hl hst hk.symm]
  exact (busyRun_midGroup hl hst e (by omega)).snoc (midGroup_ready hst k e)

end Group

/-! ## Each part of a command, at the two levels (R67, R71 to R75, R108) -/

/-- The engine with the first finalisation pass about to start, its constant in v2 (R73). -/
def startD1 (p : Params) (e : Engine) : Engine := arm p .d1 { e with v := xorV2 e.v (finalConst e.mode16) }

/-- The engine with the second finalisation pass about to start, its constant in v1 (R75). -/
def startD2 (p : Params) (e : Engine) : Engine := arm p .d2 { e with v := xorV1 e.v secondConst }

/-- The engine with the C group about to start on the word `m` (R106). -/
def startC (p : Params) (m : Word) (e : Engine) : Engine := arm p .c { e with mreg := m, v := xorV3 e.v m }

section Parts
variable {p : Params} {e : Engine}

theorem busyRun_compress_of_absorb (hl : p.legal) (m : Word) (hf : e.fin = false) :
    BusyRun p p.cRounds (startC p m e) (disarm (compress p m e)) := by
  have h := busyRun_group (st := .c) hl (by decide) { e with mreg := m, v := xorV3 e.v m }
  rwa [endOfGroup_of_absorb rfl (by simpa [arm] using hf)] at h

theorem busyRun_compress_of_final (hl : p.legal) (m : Word) (hf : e.fin = true) :
    BusyRun p p.cRounds (startC p m e) (startD1 p (compress p m e)) := by
  have h := busyRun_group (st := .c) hl (by decide) { e with mreg := m, v := xorV3 e.v m }
  rwa [endOfGroup_of_final rfl (by simpa [arm] using hf)] at h

theorem busyRun_firstPass_of_mode8 (hl : p.legal) (hm : e.mode16 = false) :
    BusyRun p p.dRounds (startD1 p e) (disarm { firstPass p e with phase := .done }) := by
  have h := busyRun_group (st := .d1) hl (by decide) { e with v := xorV2 e.v (finalConst e.mode16) }
  rwa [endOfGroup_of_d1_mode8 rfl (by simpa [arm] using hm)] at h

theorem busyRun_firstPass_of_mode16 (hl : p.legal) (hm : e.mode16 = true) :
    BusyRun p p.dRounds (startD1 p e) (startD2 p (firstPass p e)) := by
  have h := busyRun_group (st := .d1) hl (by decide) { e with v := xorV2 e.v (finalConst e.mode16) }
  rwa [endOfGroup_of_d1_mode16 rfl (by simpa [arm] using hm)] at h

theorem busyRun_secondPass (hl : p.legal) :
    BusyRun p p.dRounds (startD2 p e) (disarm { secondPass p e with phase := .done }) := by
  have h := busyRun_group (st := .d2) hl (by decide) { e with v := xorV1 e.v secondConst }
  rwa [endOfGroup_of_d2 rfl] at h

/-! ## ABSORB, FINAL and every command, at the two levels (R110, R114) -/

theorem busyRun_absorb (hl : p.legal) (m : Word) (e : Engine) :
    BusyRun p p.cRounds (acceptBlock p m e) (disarm (absorb p m e)) :=
  busyRun_compress_of_absorb (e := { e with blen := blenBlock e.blen, fin := false }) hl m rfl

/-- The engine of a FINAL after its C group, the same in both modes (R71, R72). -/
def compressTail (p : Params) (t : BitVec 3) (w : Word) (e : Engine) : Engine :=
  compress p (tailWord e.blen t w) { e with blen := blenTail e.blen t, fin := true }

theorem compressTail_mode16 (t : BitVec 3) (w : Word) : (compressTail p t w e).mode16 = e.mode16 := by
  simp [compressTail]

theorem firstPass_mode16 : (firstPass p e).mode16 = e.mode16 := by
  simp [firstPass]

/-- A FINAL by its parts: in 16-byte mode it has a second pass (R73 to R75). -/
theorem finalise_eq (t : BitVec 3) (w : Word) : finalise p t w e =
    { (if e.mode16 then secondPass p (firstPass p (compressTail p t w e)) else firstPass p (compressTail p t w e)) with
      phase := .done } := by
  rw [← compressTail_mode16 (p := p) t w, ← firstPass_mode16 (p := p)]
  rfl

theorem busyRun_compressTail (hl : p.legal) (t : BitVec 3) (w : Word) (e : Engine) :
    BusyRun p p.cRounds (acceptTail p t w e) (startD1 p (compressTail p t w e)) :=
  busyRun_compress_of_final (e := { e with blen := blenTail e.blen t, fin := true }) hl (tailWord e.blen t w) rfl

theorem busyRun_finalise (hl : p.legal) (t : BitVec 3) (w : Word) (e : Engine) :
    BusyRun p (p.cRounds + (if e.mode16 then 2 * p.dRounds else p.dRounds)) (acceptTail p t w e)
      (disarm (finalise p t w e)) := by
  refine (busyRun_compressTail hl t w e).trans ?_
  have hmode := compressTail_mode16 (p := p) (e := e) t w
  rw [finalise_eq]
  cases hm : e.mode16
  · exact busyRun_firstPass_of_mode8 hl (hmode.trans hm)
  · rw [if_pos rfl, if_pos rfl, two_mul]
    exact (busyRun_firstPass_of_mode16 hl (hmode.trans hm)).trans (busyRun_secondPass hl)

/-- After its accept edge a command is busy for its latency and then done. -/
theorem busyRun_command (hl : p.legal) (c : Command) (hr : e.ready = true) (hrc : e.rc = 0) :
    BusyRun p (latency p c e) (acceptEdge p (drive c) e) (commandLevel p c e) := by
  have hs := (ready_iff e).mp hr
  have hv := drive_cmdValid c
  obtain ⟨k, hd, heq⟩ | ⟨m, hd, heq⟩ | ⟨-, hd, heq⟩ | ⟨t, -, hd, heq⟩ := commandLevel_cases p c e
  all_goals rw [heq, latency, hd]
  · rw [acceptEdge_of_error hv hd]
    exact .refl _
  · rw [acceptEdge_of_init hv hd]
    cases m <;> exact .refl _
  · rw [acceptEdge_of_absorb hv hd, ← disarm_of_idle (e := absorb ..) (by simp [hs]) (by simp [hrc])]
    exact busyRun_absorb hl c.din (clearTraceValid e)
  · rw [acceptEdge_of_final hv hd, ← disarm_of_idle (e := finalise ..) (by simp [hs]) (by simp [hrc])]
    exact busyRun_finalise hl t c.din (clearTraceValid e)

end Parts

/-- Settles O41: the accept edge begins the run of `busyRun_command`, whose edges are those of the statement whatever
their ports hold. -/
theorem cycleLevelRefinesCommandLevel : Obligations.CycleLevelRefinesCommandLevel := by
  intro p c e pins hl hr hrc hrst hlen
  have hrun := busyRun_command hl c hr hrc
  have haccept : clockEdge p (drive c) e = acceptEdge p (drive c) e := clockEdge_of_ready (drive_rst c) hr
  refine ⟨?_, (commandLevel_ready p c e).trans hr, fun k hk => ?_⟩
  · rw [clockEdges, haccept]
    exact hrun.clockEdges_eq hrst hlen
  · rw [clockEdges, haccept]
    exact hrun.busy_before (fun q hq => hrst q (List.mem_of_mem_take hq)) (by rw [List.length_take]; omega)

end Sys2Proof.Machine
end
